-- ==== Sys2Proof/Word.lean ====
section
/-! DEFINITION. The two value widths of the unit (spec/00_scope.md R5): a byte and a 16-bit word. -/

namespace Sys2Proof

/-- A memory cell, an opcode, or a register-index operand: 8 bits (R5). -/
abbrev Byte := BitVec 8

/-- A register value, an address, an immediate or a port number: 16 bits, unsigned (R5). -/
abbrev Word := BitVec 16

end Sys2Proof
end

