-- ==== Sys2Proof/Config.lean ====
section
/-! DEFINITION. The five implementation parameters of spec/00_scope.md R4, as plain data. The spec's default values are
`defaultOpcodes` (Decode.lean) and `Machine.defaultConfig` (Machine/Parameters.lean); what R4 asks of a value is checked in
WellFormed.lean. The machine has no free value, so no opaque constant stands here. -/

namespace Sys2Proof

/-- `OPC`: the opcode byte of each of the 13 mnemonics (R4, R54, decision D1). -/
structure OpcodeMap where
  nop : Byte
  halt : Byte
  movi : Byte
  mov : Byte
  add : Byte
  sub : Byte
  cmp : Byte
  jmp : Byte
  jz : Byte
  jnz : Byte
  out : Byte
  load : Byte
  store : Byte
deriving DecidableEq, Repr

/-- The 13 opcode bytes in the order of the spec's table (R54). -/
def OpcodeMap.values (opc : OpcodeMap) : List Byte :=
  [opc.nop, opc.halt, opc.movi, opc.mov, opc.add, opc.sub, opc.cmp, opc.jmp, opc.jz, opc.jnz, opc.out, opc.load,
    opc.store]

/-- The parameters `NREG`, `PC_IDX`, `FL_IDX`, `MEM_SIZE` and `OPC` of R4. -/
structure Config where
  /-- `NREG`: number of registers, PC and FL included. -/
  nreg : Nat
  /-- `PC_IDX`: register index of the program counter. -/
  pcIdx : Nat
  /-- `FL_IDX`: register index of the flags register. -/
  flIdx : Nat
  /-- `MEM_SIZE`: capacity of Memory in bytes. -/
  memSize : Nat
  /-- `OPC`: the opcode map. -/
  opc : OpcodeMap
deriving DecidableEq, Repr

end Sys2Proof
end

