-- ==== Sys2Proof/Syntax.lean ====
section
/-! DEFINITION. The closed instruction set (spec/00_scope.md R7), one constructor per row of spec/opcode_table.json, with
its operands in byte order (spec/30_encoding.md R51, R52). -/

namespace Sys2Proof

/-- The 13 variants an opcode byte can select (R74). -/
inductive Mnemonic where
  | nop | halt | movi | mov | add | sub | cmp | jmp | jz | jnz | out | load | store
deriving DecidableEq, Repr

/-- The five formats of R51. -/
inductive Format where
  /-- no operand -/
  | n
  /-- register, 16-bit word -/
  | rw
  /-- register, register -/
  | rr
  /-- address -/
  | a
  /-- port, register -/
  | pr
deriving DecidableEq, Repr

/-- A decoded instruction. A register operand is the whole index byte, in range or not (R52, R57); a 16-bit operand is the
value assembled from its two bytes. Every value of every operand is a defined encoding. -/
inductive Instr where
  /-- R90 -/
  | nop
  /-- R91 -/
  | halt
  /-- R95 -/
  | movi (reg : Byte) (imm16 : Word)
  /-- R96 -/
  | mov (reg1 reg2 : Byte)
  /-- R100 -/
  | add (reg1 reg2 : Byte)
  /-- R101 -/
  | sub (reg1 reg2 : Byte)
  /-- R102 -/
  | cmp (reg1 reg2 : Byte)
  /-- R110 -/
  | jmp (addr16 : Word)
  /-- R111 -/
  | jz (addr16 : Word)
  /-- R112 -/
  | jnz (addr16 : Word)
  /-- R115 -/
  | out (port16 : Word) (reg : Byte)
  /-- R116 -/
  | load (reg : Byte) (addr16 : Word)
  /-- R117 -/
  | store (reg : Byte) (addr16 : Word)
deriving DecidableEq, Repr

/-- Why a sequence of bytes is not the encoding of an instruction. -/
inductive DecodeError where
  /-- there is no opcode byte -/
  | noBytes
  /-- the opcode byte is none of the 13 (R56) -/
  | unknownOpcode (op : Byte)
  /-- the operand bytes of the variant are not all there -/
  | truncated (m : Mnemonic)
deriving DecidableEq, Repr

end Sys2Proof
end

