-- ==== Sys2Proof/Decode.lean ====
section
/-! DEFINITION. The decoder and the encoder, both written from the tables of spec/30_encoding.md (R50 to R57), for any opcode
map `OPC`. The decoder is total on byte lists and refuses by name. -/

namespace Sys2Proof

/-- The default opcode map of R4 and R54, in the order of the source's table.
DESIGN CHOICE (the spec's decision D1; log 2): the source gives no opcode number; unsafe as a claim about the original
design, since a wrong value errs both ways. -/
def defaultOpcodes : OpcodeMap where
  nop := 0x00
  halt := 0x01
  movi := 0x02
  mov := 0x03
  add := 0x04
  sub := 0x05
  cmp := 0x06
  jmp := 0x07
  jz := 0x08
  jnz := 0x09
  out := 0x0A
  load := 0x0B
  store := 0x0C

/-! ### Sixteen-bit fields (R37, R52): the low byte stands at the lower address -/

/-- `{hi, lo}` = hi * 256 + lo (R52). -/
def wordOfBytes (lo hi : Byte) : Word := hi ++ lo

/-- `w[7:0]`. -/
def lowByte (w : Word) : Byte := w.extractLsb' 0 8

/-- `w[15:8]`. -/
def highByte (w : Word) : Byte := w.extractLsb' 8 8

/-! ### The opcode map and the formats (R51, R54) -/

/-- The mnemonics in the order of the table of R54. -/
def allMnemonics : List Mnemonic :=
  [.nop, .halt, .movi, .mov, .add, .sub, .cmp, .jmp, .jz, .jnz, .out, .load, .store]

/-- `OPC(m)` (R54). -/
def opcodeOf (opc : OpcodeMap) : Mnemonic → Byte
  | .nop => opc.nop
  | .halt => opc.halt
  | .movi => opc.movi
  | .mov => opc.mov
  | .add => opc.add
  | .sub => opc.sub
  | .cmp => opc.cmp
  | .jmp => opc.jmp
  | .jz => opc.jz
  | .jnz => opc.jnz
  | .out => opc.out
  | .load => opc.load
  | .store => opc.store

/-- The format of each variant (R51, R54). -/
def formatOf : Mnemonic → Format
  | .nop | .halt => .n
  | .movi | .load | .store => .rw
  | .mov | .add | .sub | .cmp => .rr
  | .jmp | .jz | .jnz => .a
  | .out => .pr

/-- How many operand bytes follow the opcode (R50, R51). -/
def operandCount (m : Mnemonic) : Nat :=
  match formatOf m with
  | .n => 0
  | .rw => 3
  | .rr => 2
  | .a => 2
  | .pr => 3

/-- The variant an instruction belongs to. -/
def mnemonicOf : Instr → Mnemonic
  | .nop => .nop
  | .halt => .halt
  | .movi _ _ => .movi
  | .mov _ _ => .mov
  | .add _ _ => .add
  | .sub _ _ => .sub
  | .cmp _ _ => .cmp
  | .jmp _ => .jmp
  | .jz _ => .jz
  | .jnz _ => .jnz
  | .out _ _ => .out
  | .load _ _ => .load
  | .store _ _ => .store

/-- The length of an instruction in bytes, opcode byte included (R50). -/
def lengthOf (i : Instr) : Nat := 1 + operandCount (mnemonicOf i)

/-! ### Decoding (R55, R74) -/

/-- Decode is a function of the opcode byte alone: a variant, or unrecognised (R74, R56). -/
def decodeOpcode (opc : OpcodeMap) (op : Byte) : Option Mnemonic :=
  allMnemonics.find? fun m => opcodeOf opc m == op

/-- The instruction of variant `m` whose operand bytes, in stream order, are `bs` (R51, R52). Only the first
`operandCount m` of them are looked at; the callers supply that many. -/
def decodeOperands (m : Mnemonic) (bs : List Byte) : Instr :=
  let b1 := bs.getD 0 0
  let b2 := bs.getD 1 0
  let b3 := bs.getD 2 0
  match m with
  | .nop => .nop
  | .halt => .halt
  | .movi => .movi b1 (wordOfBytes b2 b3)
  | .mov => .mov b1 b2
  | .add => .add b1 b2
  | .sub => .sub b1 b2
  | .cmp => .cmp b1 b2
  | .jmp => .jmp (wordOfBytes b1 b2)
  | .jz => .jz (wordOfBytes b1 b2)
  | .jnz => .jnz (wordOfBytes b1 b2)
  | .out => .out (wordOfBytes b1 b2) b3
  | .load => .load b1 (wordOfBytes b2 b3)
  | .store => .store b1 (wordOfBytes b2 b3)

/-- Decode the instruction at the front of a byte stream, and give the bytes after it (R50, R55). -/
def decode (opc : OpcodeMap) : List Byte → Except DecodeError (Instr × List Byte)
  | [] => .error .noBytes
  | op :: rest =>
    match decodeOpcode opc op with
    | none => .error (.unknownOpcode op)
    | some m =>
      if rest.length < operandCount m then .error (.truncated m)
      else .ok (decodeOperands m rest, rest.drop (operandCount m))

/-! ### Encoding (R50, R51) -/

/-- The operand bytes of an instruction in stream order (R51). -/
def operandBytes : Instr → List Byte
  | .nop => []
  | .halt => []
  | .movi reg imm16 => [reg, lowByte imm16, highByte imm16]
  | .mov reg1 reg2 => [reg1, reg2]
  | .add reg1 reg2 => [reg1, reg2]
  | .sub reg1 reg2 => [reg1, reg2]
  | .cmp reg1 reg2 => [reg1, reg2]
  | .jmp addr16 => [lowByte addr16, highByte addr16]
  | .jz addr16 => [lowByte addr16, highByte addr16]
  | .jnz addr16 => [lowByte addr16, highByte addr16]
  | .out port16 reg => [lowByte port16, highByte port16, reg]
  | .load reg addr16 => [reg, lowByte addr16, highByte addr16]
  | .store reg addr16 => [reg, lowByte addr16, highByte addr16]

/-- The bytes of an instruction: its opcode, then its operand bytes (R50). -/
def encode (opc : OpcodeMap) (i : Instr) : List Byte :=
  opcodeOf opc (mnemonicOf i) :: operandBytes i

/-! ### Which registers an instruction names (R13, R27) -/

/-- The register operands of an instruction, in byte order: those the guard of R76 tests. -/
def registerOperands : Instr → List Byte
  | .nop => []
  | .halt => []
  | .movi reg _ => [reg]
  | .mov reg1 reg2 => [reg1, reg2]
  | .add reg1 reg2 => [reg1, reg2]
  | .sub reg1 reg2 => [reg1, reg2]
  | .cmp reg1 reg2 => [reg1, reg2]
  | .jmp _ => []
  | .jz _ => []
  | .jnz _ => []
  | .out _ reg => [reg]
  | .load reg _ => [reg]
  | .store reg _ => [reg]

/-- The register an instruction writes through an operand: the first register operand of MOVI, MOV, ADD, SUB and LOAD,
and none for the others (R13). -/
def destination : Instr → Option Byte
  | .nop => none
  | .halt => none
  | .movi reg _ => some reg
  | .mov reg1 _ => some reg1
  | .add reg1 _ => some reg1
  | .sub reg1 _ => some reg1
  | .cmp _ _ => none
  | .jmp _ => none
  | .jz _ => none
  | .jnz _ => none
  | .out _ _ => none
  | .load reg _ => some reg
  | .store _ _ => none

/-! ### The words of spec/opcode_table.json -/

/-- The longest instruction has 4 bytes (R50). -/
def longestInstr : Nat := 4

/-- The bytes of an instruction whose bits are `w`, bit 0 the least significant bit of the first byte; every bit from
`nbits` on is 0. As many bytes as the longest instruction has. -/
def tableBytes (nbits w : Nat) : List Byte :=
  (List.range longestInstr).map fun k => BitVec.ofNat 8 (w % 2 ^ nbits / 2 ^ (8 * k))

/-- What the decoder reads, under the default opcodes of the table, from the instruction whose bits are `w`. -/
def decodeTableWord (nbits w : Nat) : Option Instr :=
  match decode defaultOpcodes (tableBytes nbits w) with
  | .ok (i, _) => some i
  | .error _ => none

end Sys2Proof
end

