-- ==== Sys2Proof/Machine/Parameters.lean ====
section
/-! DEFINITION. The default parameter values of spec/00_scope.md R4, which the machine after reset has. -/

namespace Sys2Proof.Machine

/-- NREG = 8, PC_IDX = 6, FL_IDX = 7, MEM_SIZE = 65536, default OPC (R4).
DESIGN CHOICE (the spec's decisions D1, D2, D3; log 2, log 3, log 4): the source gives none of them; unsafe as a claim about the
original design. -/
def defaultConfig : Config where
  nreg := 8
  pcIdx := 6
  flIdx := 7
  memSize := 65536
  opc := defaultOpcodes

end Sys2Proof.Machine
end

