-- ==== Sys2Proof/Machine/State.lean ====
section
/-! DEFINITION. The state of the machine (spec/10_state.md R10) as plain data, its reset value (R25), and the reasons a step
or a host move can give. -/

namespace Sys2Proof.Machine

/-- The one fault-like condition of the unit (spec/60_exceptions.md R120). -/
inductive Fault where
  /-- `UnknownOpcode(op, a)` (R121, R122): the byte `op` fetched at address `a` is no opcode. Raised by
  `State.raiseUnknownOpcode`, which records it in `State.diagnostics`; the spec gives the condition its whole effect, so the
  step answers a next state and never `.fault` (log 10). Safe: `Safety.Faulted` tells such a run from a normal halt. -/
  | unknownOpcode (op : Byte) (addr : Word)
deriving DecidableEq, Repr

/-- Why the model gives no next state. -/
inductive Refusal where
  /-- An instruction without a meaning, answered by its arm of `exec`. No arm answers it: all 13 have their meaning. Safe. -/
  | notModelled (mnemonic : String)
  /-- The host's `load` of an image longer than MEM_SIZE (spec/20_memory.md R34, decision D11). Raised by `hostLoad`, never
  by a step. Safe: no run starts from a truncated image. -/
  | imageTooLong
deriving DecidableEq, Repr

/-- Memory as the cells that differ from what an unlisted address reads as, at strictly rising indices. The operations and the
canonical form are in Ops.lean. -/
abbrev Memory := List Host.Cell

/-- The state of the machine. `regs`, `halted` and `mem` are the three things of R10. `config` holds the parameters of
spec/00_scope.md R4, which nothing writes (log 1), and `diagnostics` what the unit has put out on the external diagnostic
channel, which nothing reads (R122, log 10): these two are the model's own fields. -/
structure State where
  /-- NREG, PC_IDX, FL_IDX, MEM_SIZE, OPC (R4). -/
  config : Config
  /-- The register file x[0] .. x[NREG-1]; PC is x[PC_IDX] and FL is x[FL_IDX] (R11, R12). -/
  regs : List Word
  /-- The halted latch (R22). -/
  halted : Bool
  /-- Memory (R23). -/
  mem : Memory
  /-- The events emitted so far, oldest first (R122). -/
  diagnostics : List Fault
deriving DecidableEq, Repr

/-- The machine right after construction with the default parameters (R25, R140, R144): every register zero, not halted,
Memory all zero, no event. -/
def State.reset : State where
  config := defaultConfig
  regs := List.replicate defaultConfig.nreg 0
  halted := false
  mem := []
  diagnostics := []

end Sys2Proof.Machine
end

