-- ==== Sys2Proof/Machine/Ops.lean ====
section
/-! DEFINITION. The named operations over Memory, the register file, the fetch and the unknown-opcode condition
(spec/20_memory.md R32 to R36, spec/40_fetch_decode.md R70 to R76, spec/60_exceptions.md R121). -/

namespace Sys2Proof.Machine

/-! ### Memory -/

/-- What a byte that nothing has written reads as: "created once at startup with all bytes zeroed" (R31). -/
def unwrittenByte : Byte := 0

/-- The byte at a cell index. -/
def Memory.lookup : Memory → Nat → Byte
  | [], _ => unwrittenByte
  | (a, b) :: m, n => if a = n then b else Memory.lookup m n

/-- Store a byte at a cell index, keeping the canonical form: writing what an unlisted cell reads as removes the entry. -/
def Memory.store : Memory → Nat → Byte → Memory
  | [], n, b => if b = unwrittenByte then [] else [(n, b)]
  | (a, c) :: m, n, b =>
    if a < n then (a, c) :: Memory.store m n b
    else
      let rest := if a = n then m else (a, c) :: m
      if b = unwrittenByte then rest else (n, b) :: rest

/-- Store a sequence of bytes at ascending cell indices from `n` on. -/
def Memory.storeAll (m : Memory) (n : Nat) : List Byte → Memory
  | [] => m
  | b :: bs => Memory.storeAll (Memory.store m n b) (n + 1) bs

/-- The canonical form: indices strictly rising, no entry equal to what an unlisted cell reads as. -/
def Memory.wf (m : Memory) : Bool :=
  decide (m.Pairwise fun c d => c.1 < d.1) && m.all fun c => c.2 != unwrittenByte

/-- Every listed index is below the capacity. -/
def Memory.within (size : Nat) (m : Memory) : Bool := m.all fun c => decide (c.1 < size)

/-- The byte of Memory at a cell index, 0 to MEM_SIZE - 1. -/
def State.byteAt (s : State) (n : Nat) : Byte := s.mem.lookup n

/-- The cell index a 16-bit address names: `a mod MEM_SIZE` (R32, R33).
DESIGN CHOICE (the spec's decision D3; log 4): wrap rather than fail; with MEM_SIZE >= 65536 it changes no address. -/
def State.cellIndex (s : State) (a : Word) : Nat := a.toNat % s.config.memSize

/-- `MemRead(a, 1)` (R32, R36). -/
def State.memRead (s : State) (a : Word) : Byte := s.byteAt (s.cellIndex a)

/-- `MemWrite(a, 1, b)` (R33, R36). -/
def State.memWrite (s : State) (a : Word) (b : Byte) : State :=
  { s with mem := s.mem.store (s.cellIndex a) b }

/-- The `n` bytes from address `a` on, addresses modulo 65536 (R51). -/
def State.bytesFrom (s : State) (a : Word) (n : Nat) : List Byte :=
  (List.range n).map fun k => s.memRead (a + BitVec.ofNat 16 k)

/-! ### Registers -/

/-- `x[i]` (R11). An index outside the file reads 0; the guard keeps an instruction from reaching one (R76, log 16). -/
def State.readReg (s : State) (i : Nat) : Word := s.regs.getD i 0

/-- `x[i] <- v` (R11). An index outside the file writes nothing; the guard keeps an instruction from reaching one. -/
def State.writeReg (s : State) (i : Nat) (v : Word) : State := { s with regs := s.regs.set i v }

/-- `pc`, an alias of `x[PC_IDX]` (R12, R14). -/
def State.pc (s : State) : Word := s.readReg s.config.pcIdx

/-- `pc <- v`. -/
def State.setPc (s : State) (v : Word) : State := s.writeReg s.config.pcIdx v

/-- `fl`, an alias of `x[FL_IDX]` (R12, R18). -/
def State.fl (s : State) : Word := s.readReg s.config.flIdx

/-- `fl <- v`. -/
def State.setFl (s : State) (v : Word) : State := s.writeReg s.config.flIdx v

/-- Set the halted latch (R22). -/
def State.halt (s : State) : State := { s with halted := true }

/-! ### Fetch -/

/-- `Fetch8()`: the byte at `pc`, and `pc <- (pc + 1) mod 65536` (R72).
DESIGN CHOICE (the spec's decision D4; log 5): the wrap at 0xFFFF. -/
def State.fetch8 (s : State) : Byte × State := (s.memRead s.pc, s.setPc (s.pc + 1))

/-- `n` successive `Fetch8()`, the bytes in stream order (R53, R73). -/
def State.fetchBytes : Nat → State → List Byte × State
  | 0, s => ([], s)
  | n + 1, s =>
    let first := s.fetch8
    let others := State.fetchBytes n first.2
    (first.1 :: others.1, others.2)

/-- Phases 2 and 3 of a step (R70): fetch the opcode byte, and for a recognised variant its operand bytes; an unrecognised
opcode byte is given back alone, with no operand byte fetched (R55, R121, R125). -/
def State.fetchInstr (s : State) : Except Byte Instr × State :=
  let opcode := s.fetch8
  match decodeOpcode s.config.opc opcode.1 with
  | none => (.error opcode.1, opcode.2)
  | some m =>
    let operands := State.fetchBytes (operandCount m) opcode.2
    (.ok (decodeOperands m operands.1), operands.2)

/-! ### The unknown-opcode condition -/

/-- `raise UnknownOpcode(op, a)` (R121): latch `halted` and emit the event. `pc` has already moved past the byte. This is all
of the unit's exception entry: nothing is saved and control goes nowhere (R126). There is no return from it (R127); the one way
out is the host's reset, `hostReset`. -/
def State.raiseUnknownOpcode (s : State) (op : Byte) (a : Word) : State :=
  { s.halt with diagnostics := s.diagnostics ++ [.unknownOpcode op a] }

/-! ### Operations of the tests and of the host's one-word check -/

/-- Store bytes at ascending addresses from `a` on, addresses modulo 65536. -/
def State.placeBytes (s : State) (a : Word) : List Byte → State
  | [] => s
  | b :: bs => State.placeBytes (s.memWrite a b) (a + 1) bs

end Sys2Proof.Machine
end

