-- ==== Sys2Proof/Machine/Flags.lean ====
section
/-! DEFINITION. The 16-bit results of the ALU (spec/43_alu.md R103) and the Zero flag (spec/40_fetch_decode.md R81). -/

namespace Sys2Proof.Machine

/-- `(u + v) mod 65536` (R100, R103). -/
def addWrap (u v : Word) : Word := BitVec.ofNat 16 (u.toNat + v.toNat)

/-- `(u - v) mod 65536`, the non-negative remainder (R101, R103). -/
def subWrap (u v : Word) : Word := BitVec.ofInt 16 ((u.toNat : Int) - (v.toNat : Int))

/-- `Z`, bit 0 of FL (R18). -/
def State.zeroFlag (s : State) : Bool := s.fl.getLsbD 0

/-- The value of FL after a flag update from result `r`: bit 0 says whether `r` is zero, bits 15 to 1 stay (R20, R81).
DESIGN CHOICE (the spec's decision D5; log 6): bit 0 only. -/
def flagUpdate (fl r : Word) : Word := (fl &&& 0xFFFE) ||| (if r = 0 then 1 else 0)

/-- `SetZ(r)` (R81). -/
def State.setZ (s : State) (r : Word) : State := s.setFl (flagUpdate s.fl r)

end Sys2Proof.Machine
end

