-- ==== Sys2Proof/Machine/Operands.lean ====
section
/-! DEFINITION. Register operands, the register-index guard and byte extension (spec/40_fetch_decode.md R76,
spec/45_memory_io.md R118). -/

namespace Sys2Proof.Machine

/-- `InRange(i)`: `i < NREG`; the index byte is not masked first (R52, R76). -/
def State.inRange (s : State) (i : Byte) : Bool := decide (i.toNat < s.config.nreg)

/-- The register-index guard (R76): the phase-4 body runs whole when every register operand is in range, and has no effect at
all otherwise (decision D8, conflict C2; log 9). -/
def State.guarded (s : State) (operands : List Byte) (body : State → State) : State :=
  if operands.all s.inRange then body s else s

/-- The value of a register operand. Any index of the file may be named, PC and FL included (R13, R21, decision D7; log 8); `pc`
then reads as the address of the next instruction (R75). -/
def State.operand (s : State) (i : Byte) : Word := s.readReg i.toNat

/-- Write the destination operand. A write to PC_IDX is a jump, one to FL_IDX sets all 16 bits (R17, R21). -/
def State.writeOperand (s : State) (i : Byte) (v : Word) : State := s.writeReg i.toNat v

/-- `zext_16(b)` (R116, R118). -/
def zeroExtend (b : Byte) : Word := b.setWidth 16

end Sys2Proof.Machine
end

