-- ==== Sys2Proof/Machine/Alu.lean ====
section
/-! DEFINITION. The phase-4 bodies of ADD, SUB and CMP (spec/43_alu.md). -/

namespace Sys2Proof.Machine

/-- Write a result to the destination, then update Z from it: in that order, so that a destination FL_IDX keeps bits 15 to 1 of
the result (R83, R100 (f)). DESIGN CHOICE (the spec's decision D6; log 7). -/
def State.writeResult (s : State) (reg : Byte) (r : Word) : State := (s.writeOperand reg r).setZ r

/-- ADD: `x[reg1] <- (x[reg1] + x[reg2]) mod 65536`, then `SetZ` (R100). -/
def execAdd (reg1 reg2 : Byte) (s : State) : Host.Outcome State Fault Refusal :=
  .next (s.guarded [reg1, reg2] fun s => s.writeResult reg1 (addWrap (s.operand reg1) (s.operand reg2)))

/-- SUB: `x[reg1] <- (x[reg1] - x[reg2]) mod 65536`, then `SetZ` (R101). -/
def execSub (reg1 reg2 : Byte) (s : State) : Host.Outcome State Fault Refusal :=
  .next (s.guarded [reg1, reg2] fun s => s.writeResult reg1 (subWrap (s.operand reg1) (s.operand reg2)))

/-- CMP: `SetZ` of `(x[reg1] - x[reg2]) mod 65536`; the difference is discarded (R102). -/
def execCmp (reg1 reg2 : Byte) (s : State) : Host.Outcome State Fault Refusal :=
  .next (s.guarded [reg1, reg2] fun s => s.setZ (subWrap (s.operand reg1) (s.operand reg2)))

end Sys2Proof.Machine
end

