-- ==== Sys2Proof/Machine/Jump.lean ====
section
/-! DEFINITION. The phase-4 bodies of JMP, JZ and JNZ (spec/44_jump.md). -/

namespace Sys2Proof.Machine

/-- JMP: `pc <- addr16` (R110). -/
def execJmp (addr16 : Word) (s : State) : Host.Outcome State Fault Refusal := .next (s.setPc addr16)

/-- JZ: `pc <- addr16` if `Z = 1` (R111). -/
def execJz (addr16 : Word) (s : State) : Host.Outcome State Fault Refusal :=
  .next (if s.zeroFlag then s.setPc addr16 else s)

/-- JNZ: `pc <- addr16` if `Z = 0` (R112). -/
def execJnz (addr16 : Word) (s : State) : Host.Outcome State Fault Refusal :=
  .next (if s.zeroFlag then s else s.setPc addr16)

end Sys2Proof.Machine
end

