-- ==== Sys2Proof/Machine/MemoryIo.lean ====
section
/-! DEFINITION. The phase-4 bodies of OUT, LOAD and STORE (spec/45_memory_io.md). -/

namespace Sys2Proof.Machine

/-- Store the low byte of a register operand, the operation OUT and STORE share (R115, R117, R118). -/
def State.storeLowByte (s : State) (addr : Word) (reg : Byte) : State := s.memWrite addr (lowByte (s.operand reg))

/-- OUT: `MemWrite(port16, 1, x[reg][7:0])`; a port is a memory address (R115). -/
def execOut (port16 : Word) (reg : Byte) (s : State) : Host.Outcome State Fault Refusal :=
  .next (s.guarded [reg] fun s => s.storeLowByte port16 reg)

/-- LOAD: `x[reg] <- zext_16(MemRead(addr16, 1))` (R116). -/
def execLoad (reg : Byte) (addr16 : Word) (s : State) : Host.Outcome State Fault Refusal :=
  .next (s.guarded [reg] fun s => s.writeOperand reg (zeroExtend (s.memRead addr16)))

/-- STORE: `MemWrite(addr16, 1, x[reg][7:0])` (R117). -/
def execStore (reg : Byte) (addr16 : Word) (s : State) : Host.Outcome State Fault Refusal :=
  .next (s.guarded [reg] fun s => s.storeLowByte addr16 reg)

end Sys2Proof.Machine
end

