-- ==== Sys2Proof/Machine/Move.lean ====
section
/-! DEFINITION. The phase-4 bodies of MOVI and MOV (spec/42_move.md). -/

namespace Sys2Proof.Machine

/-- MOVI: `x[reg] <- imm16` (R95). -/
def execMovi (reg : Byte) (imm16 : Word) (s : State) : Host.Outcome State Fault Refusal :=
  .next (s.guarded [reg] fun s => s.writeOperand reg imm16)

/-- MOV: `x[reg1] <- x[reg2]` (R96). -/
def execMov (reg1 reg2 : Byte) (s : State) : Host.Outcome State Fault Refusal :=
  .next (s.guarded [reg1, reg2] fun s => s.writeOperand reg1 (s.operand reg2))

end Sys2Proof.Machine
end

