-- ==== Sys2Proof/Machine/System.lean ====
section
/-! DEFINITION. The phase-4 bodies of NOP and HALT (spec/41_system.md). -/

namespace Sys2Proof.Machine

/-- NOP: no effect (R90). -/
def execNop (s : State) : Host.Outcome State Fault Refusal := .next s

/-- HALT: `halted <- true`; the opcode fetch has moved `pc` past it (R91, decision D15; log 13). -/
def execHalt (s : State) : Host.Outcome State Fault Refusal := .next s.halt

end Sys2Proof.Machine
end

