-- ==== Sys2Proof/Machine/Dispatch.lean ====
section
/-! DEFINITION. Phase 4 of a step (spec/40_fetch_decode.md R70): each instruction's own body, applied to the state in which
`pc` already holds the address of the next sequential instruction (R75). -/

namespace Sys2Proof.Machine

def exec (i : Instr) (s : State) : Host.Outcome State Fault Refusal :=
  match i with
  | .nop => Sys2Proof.Machine.execNop s
  | .halt => Sys2Proof.Machine.execHalt s
  | .movi reg imm16 => Sys2Proof.Machine.execMovi reg imm16 s
  | .mov reg1 reg2 => Sys2Proof.Machine.execMov reg1 reg2 s
  | .add reg1 reg2 => Sys2Proof.Machine.execAdd reg1 reg2 s
  | .sub reg1 reg2 => Sys2Proof.Machine.execSub reg1 reg2 s
  | .cmp reg1 reg2 => Sys2Proof.Machine.execCmp reg1 reg2 s
  | .jmp addr16 => Sys2Proof.Machine.execJmp addr16 s
  | .jz addr16 => Sys2Proof.Machine.execJz addr16 s
  | .jnz addr16 => Sys2Proof.Machine.execJnz addr16 s
  | .out port16 reg => Sys2Proof.Machine.execOut port16 reg s
  | .load reg addr16 => Sys2Proof.Machine.execLoad reg addr16 s
  | .store reg addr16 => Sys2Proof.Machine.execStore reg addr16 s

end Sys2Proof.Machine
end

