-- ==== Sys2Proof/Machine/Step.lean ====
section
/-! DEFINITION. The single-step operation (spec/40_fetch_decode.md R70). -/

namespace Sys2Proof.Machine

/-- One fetch-decode-execute cycle (R70): a halted engine changes nothing (R71); an unknown opcode latches the halt (R121); a
recognised instruction is fetched whole and then runs its body. -/
def step (s : State) : Host.Outcome State Fault Refusal :=
  if s.halted then .next s
  else
    match s.fetchInstr with
    | (.ok i, s') => exec i s'
    | (.error op, s') => .next (s'.raiseUnknownOpcode op s.pc)

/-- `s` with the instruction whose bits are `w` stored at `pc` (log 14). -/
def State.withFetchWord (s : State) (nbits w : Nat) : State := s.placeBytes s.pc (tableBytes nbits w)

end Sys2Proof.Machine
end

