-- ==== Sys2Proof/Machine/HostMoves.lean ====
section
/-! DEFINITION. What the host may do between steps (spec/70_reset_and_hazards.md R149), other than `step` itself. -/

namespace Sys2Proof.Machine

/-- `reset()`: every register zero, the halted latch cleared (R140), at any time between steps (R141).
DESIGN CHOICE (the spec's decision D14; log 12): Memory is not touched (R142). What has gone out on the diagnostic channel
stays out, so `Safety.Faulted` stays true over a reset (the model's choice, log 12, log 21). -/
def hostReset (s : State) : State :=
  { s with regs := List.replicate s.config.nreg 0, halted := false }

/-- `load(bytes)` (R34): copy the bytes to the start of Memory; the bytes beyond keep their value (decision D13; log 11), the
register file and the latch too. DESIGN CHOICE (the spec's decision D11; log 11): bytes that do not fit are refused. -/
def hostLoad (bytes : List Byte) (s : State) : Host.Outcome State Fault Refusal :=
  if s.config.memSize < bytes.length then .refused .imageTooLong
  else .next { s with mem := s.mem.storeAll 0 bytes }

/-- Memory as created (R31, R144 (1)) and an engine about to be constructed, for the parameters `c`. -/
def freshState (c : Config) : State where
  config := c
  regs := List.replicate c.nreg 0
  halted := false
  mem := []
  diagnostics := []

/-- The start-up order of R144 for the parameters `c`: create Memory, load the image, construct the engine, which resets it. -/
def launch (c : Config) (image : List Byte) : Host.Outcome State Fault Refusal :=
  match hostLoad image (freshState c) with
  | .next s => .next (hostReset s)
  | .fault f => .fault f
  | .refused r => .refused r

/-- The register values the host may observe between steps (R133, R152). -/
def hostReadRegisters (s : State) : List Word := s.regs

/-- `snapshot()`: the raw contents of Memory, cell 0 to MEM_SIZE - 1, with no effect on any state (R35). -/
def hostSnapshot (s : State) : List Byte := (List.range s.config.memSize).map s.byteAt

end Sys2Proof.Machine
end

