-- ==== Sys2Proof/Machine/Outputs.lean ====
section
/-! DEFINITION. The outputs of a step that are not state: the boolean `continues` (spec/40_fetch_decode.md R77) and the requests
on the memory ports (spec/20_memory.md R39, spec/70_reset_and_hazards.md R152). The third output, the event of an unknown opcode
(R78), is recorded in `State.diagnostics`. -/

namespace Sys2Proof.Machine

/-- `continues`, the boolean `step` returns (R70 phases 1 and 5, R77): false for a halted engine, an unknown opcode and HALT. -/
def stepReturns (s : State) : Bool :=
  if s.halted then false
  else
    match s.fetchInstr.1 with
    | .ok i => mnemonicOf i != .halt
    | .error _ => false

/-- One request on the memory read port or write port (R152). -/
inductive Request where
  /-- one byte read at a 16-bit address -/
  | read (addr : Word)
  /-- one byte written at a 16-bit address -/
  | write (addr : Word) (byte : Byte)
deriving DecidableEq, Repr

/-- The read requests of `n` bytes from address `a` on, in ascending order (R39). -/
def fetchRequests (a : Word) (n : Nat) : List Request :=
  (List.range n).map fun k => .read (a + BitVec.ofNat 16 k)

/-- The data request of phase 4, at most one (R39): a guard-skipped instruction makes none, a skipped LOAD included (R76). -/
def dataRequests (i : Instr) (s : State) : List Request :=
  match i with
  | .nop => []
  | .halt => []
  | .movi _ _ => []
  | .mov _ _ => []
  | .add _ _ => []
  | .sub _ _ => []
  | .cmp _ _ => []
  | .jmp _ => []
  | .jz _ => []
  | .jnz _ => []
  | .out port16 reg => if s.inRange reg then [.write port16 (lowByte (s.operand reg))] else []
  | .load reg addr16 => if s.inRange reg then [.read addr16] else []
  | .store reg addr16 => if s.inRange reg then [.write addr16 (lowByte (s.operand reg))] else []

/-- The memory requests of one step, in order (R39): none when halted, the opcode read alone for an unknown opcode. -/
def stepRequests (s : State) : List Request :=
  if s.halted then []
  else
    match s.fetchInstr with
    | (.ok i, s') => fetchRequests s.pc (lengthOf i) ++ dataRequests i s'
    | (.error _, _) => fetchRequests s.pc 1

end Sys2Proof.Machine
end

