-- ==== Sys2Proof/WellFormed.lean ====
section
/-! DEFINITION. The constraints of spec/00_scope.md R4 on the parameters, one named check each. A term of `Instr` needs no
check of its own: its operands carry their widths, every value of a register index byte and of a 16-bit field is a defined
encoding (spec/30_encoding.md R52, R57), and an out-of-range register index is the guard's affair when the instruction runs
(spec/40_fetch_decode.md R76), not an ill-formed instruction. -/

namespace Sys2Proof

/-- `OPC` is injective (R4; its values are bytes by type). -/
def OpcodeMap.wellFormed (opc : OpcodeMap) : Bool := decide opc.values.Nodup

/-- 4 <= NREG <= 256 (R4). -/
def Config.nregOk (c : Config) : Bool := decide (4 ≤ c.nreg ∧ c.nreg ≤ 256)

/-- PC_IDX < NREG, not 0 or 1 (R4). -/
def Config.pcIdxOk (c : Config) : Bool := decide (c.pcIdx < c.nreg ∧ c.pcIdx ≠ 0 ∧ c.pcIdx ≠ 1)

/-- FL_IDX < NREG, not 0 or 1 (R4). -/
def Config.flIdxOk (c : Config) : Bool := decide (c.flIdx < c.nreg ∧ c.flIdx ≠ 0 ∧ c.flIdx ≠ 1)

/-- PC_IDX != FL_IDX (R4). -/
def Config.indicesDistinct (c : Config) : Bool := decide (c.pcIdx ≠ c.flIdx)

/-- MEM_SIZE >= 1 (R4). -/
def Config.memSizeOk (c : Config) : Bool := decide (1 ≤ c.memSize)

/-- An admissible choice of the parameters (R4). -/
def Config.wellFormed (c : Config) : Bool :=
  c.nregOk && c.pcIdxOk && c.flIdxOk && c.indicesDistinct && c.memSizeOk && c.opc.wellFormed

end Sys2Proof
end

