-- ==== Sys2Proof/Safety.lean ====
section
/-! DEFINITION. The terms claims are made in: well-formed states, what counts as a faulted run, and frames. -/

namespace Sys2Proof.Safety

open Sys2Proof.Machine

/-- A state the machine can be in: admissible parameters (spec/00_scope.md R4), a register file of NREG entries
(spec/10_state.md R11), and Memory in its canonical form within its capacity (R23). -/
def Wf (s : State) : Bool :=
  s.config.wellFormed && decide (s.regs.length = s.config.nreg) && Memory.wf s.mem && Memory.within s.config.memSize s.mem

/-- An unknown opcode has been met since the state was constructed: the record that tells it from a normal halt
(spec/60_exceptions.md R122, spec/93_implementation_defined.md U6).
DESIGN CHOICE (log 21): the record is of the machine and not of one run. The spec does not say whether an unknown opcode met before a
re-applied reset makes the next run faulted; here it does, since `hostReset` keeps `diagnostics` (log 12). -/
def Faulted (s : State) : Bool := !s.diagnostics.isEmpty

/-- The normal end of a run: halted with no diagnostic (spec/70_reset_and_hazards.md R150).
DESIGN CHOICE (log 21): false too for a HALT in a run after a reset, if an earlier run met an unknown opcode. -/
def HaltedNormally (s : State) : Bool := s.halted && !Faulted s

/-- Register index `i` is neither PC nor FL (the glossary of spec/00_scope.md). -/
def GeneralPurpose (s : State) (i : Nat) : Bool := decide (i < s.config.nreg ∧ i ≠ s.config.pcIdx ∧ i ≠ s.config.flIdx)

/-! ### Frames -/

/-- Every register but those listed is as before. -/
def RegistersKeptExcept (written : List Nat) (s t : State) : Prop := ∀ j, j ∉ written → t.readReg j = s.readReg j

/-- Every byte of Memory is as before. -/
def MemoryKept (s t : State) : Prop := ∀ n, t.byteAt n = s.byteAt n

/-- Every byte of Memory but the one at a cell index is as before. -/
def MemoryKeptExcept (cell : Nat) (s t : State) : Prop := ∀ n, n ≠ cell → t.byteAt n = s.byteAt n

/-- The halted latch, the parameters and the diagnostic channel are as before. -/
def ControlKept (s t : State) : Prop :=
  t.halted = s.halted ∧ t.config = s.config ∧ t.diagnostics = s.diagnostics

/-- Bits 15 to 1 of FL are as before (spec/10_state.md R20). -/
def UpperFlagsKept (fl fl' : Word) : Prop := ∀ k, 0 < k → fl'.getLsbD k = fl.getLsbD k

/-! ### Requests on the memory write port -/

/-- What a request on the memory ports does to the state: a read nothing, a write its byte (spec/20_memory.md R36, R40). -/
def applyRequest (s : State) : Request → State
  | .read _ => s
  | .write a b => s.memWrite a b

/-- The requests of a step, one after the other. -/
def applyRequests (s : State) (rs : List Request) : State := rs.foldl applyRequest s

end Sys2Proof.Safety
end

