-- ==== Sys2Proof/Certificates/Slice0/Obligations.lean ====
section
/-! DEFINITION. The statements for the provers, from the numbered rules of spec/. `Wf` (Safety.lean) is the invariant that
rules out states no run reaches; `StepKeepsWellFormed`, `ResetIsWellFormed` and `LaunchGivesTheLaunchState` say that it is one. Every
statement that takes a state is about every admissible value of the parameters of spec/00_scope.md R4, which the state carries. -/

open Sys2Proof Sys2Proof.Machine Sys2Proof.Safety

/-! ### Encoding -/

/-- Decode and encode agree, for every instruction, every operand value, every injective opcode map and whatever bytes follow
(30_encoding.md sections 1 to 3). It says that no bit of an encoding is dropped. -/
def Obligations.DecodeOfEncodeGivesInstruction : Prop :=
  ∀ (opc : OpcodeMap) (i : Instr) (rest : List Byte), opc.wellFormed = true →
    decode opc (encode opc i ++ rest) = .ok (i, rest)

/-- The other direction: the bytes a decoding consumed are the encoding of what it gave, so that every bit of every byte is
significant (30_encoding.md section 1). -/
def Obligations.EncodeOfDecodeGivesBytes : Prop :=
  ∀ (opc : OpcodeMap) (bytes : List Byte) (i : Instr) (rest : List Byte),
    decode opc bytes = .ok (i, rest) → bytes = encode opc i ++ rest

/-- Every byte the map does not assign is an unknown opcode, whatever follows it, and 243 of the 256 values are
(30_encoding.md section 4). -/
def Obligations.UnassignedOpcodesAreUnknown : Prop :=
  (∀ (opc : OpcodeMap) (op : Byte) (rest : List Byte),
    decode opc (op :: rest) = .error (.unknownOpcode op) ↔ op ∉ opc.values) ∧
  ∀ opc : OpcodeMap, opc.wellFormed = true →
    ((List.range 256).filter fun n => (decodeOpcode opc (BitVec.ofNat 8 n)).isNone).length = 243

/-- A few words of the opcode table, written out from their encodings, decode to the instructions they stand for, under the
spec's default opcodes (its decision D1, log 2). The byte order of the OUT and LOAD words is deduced from the operand order of the
source's table (30_encoding.md section 1 and N5, log 17). -/
def Obligations.TableWordsDecodeAsWritten : Prop :=
  decodeTableWord 8 0x00 = some .nop ∧
  decodeTableWord 8 0x01 = some .halt ∧
  decodeTableWord 32 0x12340302 = some (.movi 0x03 0x1234) ∧
  decodeTableWord 24 0x020105 = some (.sub 0x01 0x02) ∧
  decodeTableWord 24 0x123408 = some (.jz 0x1234) ∧
  decodeTableWord 32 0x0503000A = some (.out 0x0300 0x05) ∧
  decodeTableWord 32 0x0200010B = some (.load 0x01 0x0200) ∧
  decodeTableWord 8 0x0D = none

/-- The word the host stores for its one-word check is what the next step runs. `withFetchWord` is the model's own stand-in for
the host's load (log 14). The opcode map and the capacity are the spec's defaults (its decisions D1 and D3, log 2, log 4), and the addresses
of the stored bytes and `pc` wrap at 0xFFFF (its decision D4, log 5). -/
def Obligations.WithFetchWordRunsTheTableInstruction : Prop :=
  ∀ (s : State) (nbits w : Nat) (i : Instr), Wf s = true → s.halted = false →
    s.config.opc = defaultOpcodes → s.config.memSize = 65536 → decodeTableWord nbits w = some i →
    step (s.withFetchWord nbits w) =
      exec i ((s.withFetchWord nbits w).setPc (s.pc + BitVec.ofNat 16 (lengthOf i)))

/-! ### The step -/

/-- When the bytes at `pc` decode to an instruction, the step is that instruction's body on the state in which `pc` has moved past
its bytes and nothing else has changed (R70, R75; the wrap of `pc` is the spec's decision D4, log 5). -/
def Obligations.StepRunsDecodedInstruction : Prop :=
  ∀ (s : State) (i : Instr) (rest : List Byte), Wf s = true → s.halted = false →
    decode s.config.opc (s.bytesFrom s.pc 4) = .ok (i, rest) →
    step s = exec i (s.setPc (s.pc + BitVec.ofNat 16 (lengthOf i)))

/-- R71: a step on a halted engine changes nothing, makes no memory access, returns false, and so does any number of further
steps. -/
def Obligations.HaltedStepChangesNothing : Prop :=
  ∀ s : State, s.halted = true →
    step s = .next s ∧ stepReturns s = false ∧ stepRequests s = [] ∧ ∀ n, Host.Core.run core n s = .next s

/-- An unknown opcode latches the halt, leaves `pc` one past the byte, emits the event, and changes nothing else
(60_exceptions.md section 1). Where `pc` is left and what the event carries are the spec's decisions D15 and D10 (log 13, log 10). -/
def Obligations.UnknownOpcodeHalts : Prop :=
  ∀ s : State, Wf s = true → s.halted = false → s.memRead s.pc ∉ s.config.opc.values →
    ∃ t, step s = .next t ∧ t.halted = true ∧ t.pc = s.pc + 1 ∧
      RegistersKeptExcept [s.config.pcIdx] s t ∧ MemoryKept s t ∧ t.config = s.config ∧
      t.diagnostics = s.diagnostics ++ [.unknownOpcode (s.memRead s.pc) s.pc] ∧
      stepReturns s = false ∧ stepRequests s = [.read s.pc]

/-- R77: from every state a step has exactly one outcome, a next state; it returns false in exactly three cases, and in the last
two `halted` is true afterwards. -/
def Obligations.StepIsTotalAndReturnsContinues : Prop :=
  ∀ s : State,
    (∃ t, step s = .next t ∧ (∀ o, step s = o → o = .next t) ∧
      (decodeOpcode s.config.opc (s.memRead s.pc) = some .halt ∨ decodeOpcode s.config.opc (s.memRead s.pc) = none →
        t.halted = true) ∧ stepReturns s = !t.halted) ∧
    (stepReturns s = false ↔ s.halted = true ∨ decodeOpcode s.config.opc (s.memRead s.pc) = some .halt ∨
      decodeOpcode s.config.opc (s.memRead s.pc) = none)

/-- Every instruction's body answers a next state from every state and operands: no instruction of the table stops
(60_exceptions.md section 1). -/
def Obligations.EveryInstructionCompletes : Prop :=
  ∀ (i : Instr) (s : State), ∃ t, exec i s = .next t

/-- The control-flow multiplexer (40_fetch_decode.md section 6): the value of `pc` after a non-halted step, for every opcode byte and
instruction. Of the rows, a destination PC_IDX and a source PC_IDX are the spec's decision D7 (log 8), the unknown opcode and HALT its
decision D15 (log 13), a guard-skipped instruction its decision D8 (log 9), and the wrap of `pc` in every row its decision D4 (log 5). -/
def Obligations.PcAfterStepIsSelected : Prop :=
  ∀ s t : State, Wf s = true → s.halted = false → step s = .next t →
    match decode s.config.opc (s.bytesFrom s.pc 4) with
    | .error _ => t.pc = s.pc + 1
    | .ok (i, _) =>
      let after := s.pc + BitVec.ofNat 16 (lengthOf i)
      let value : Byte → Word := fun r => if r.toNat = s.config.pcIdx then after else s.readReg r.toNat
      let jump : Byte → List Byte → Word → Word := fun r others target =>
        if r.toNat = s.config.pcIdx ∧ (∀ o ∈ others, o.toNat < s.config.nreg) then target else after
      t.pc = match i with
        | .nop => after
        | .halt => after
        | .movi r v => jump r [] v
        | .mov r r2 => jump r [r2] (value r2)
        | .add r r2 => jump r [r2] (after + value r2)
        | .sub r r2 => jump r [r2] (after - value r2)
        | .cmp _ _ => after
        | .jmp a => a
        | .jz a => if s.fl.getLsbD 0 = true then a else after
        | .jnz a => if s.fl.getLsbD 0 = true then after else a
        | .out _ _ => after
        | .load r a => jump r [] (BitVec.ofNat 16 (s.memRead a).toNat)
        | .store _ _ => after

/-- The requests of a step on the memory ports (20_memory.md section 5), exactly: none when halted, the opcode read alone for an unknown
opcode, and otherwise the reads of the instruction's bytes in ascending order, then the one data request of a LOAD, STORE or OUT that is not
guard-skipped; and Memory after the step is what these requests make of it. That the model computes the requests by a function of
its own is log 18. A register operand may be PC, which then has the next instruction's address (the spec's decision D7, log 8); a skipped instruction
makes no data request (decision D8, log 9); addresses wrap at 0xFFFF (decision D4, log 5) and name cells modulo MEM_SIZE (decision D3, log 4). -/
def Obligations.StepRequestsAccountForMemory : Prop :=
  ∀ s t : State, Wf s = true → step s = .next t →
    (∀ n, t.byteAt n = (applyRequests s (stepRequests s)).byteAt n) ∧
    (s.halted = true → stepRequests s = []) ∧
    (s.halted = false →
      match decode s.config.opc (s.bytesFrom s.pc 4) with
      | .error _ => stepRequests s = [.read s.pc]
      | .ok (i, _) =>
        let after := s.pc + BitVec.ofNat 16 (lengthOf i)
        let low : Byte → Byte := fun r =>
          BitVec.ofNat 8 ((if r.toNat = s.config.pcIdx then after else s.readReg r.toNat).toNat % 256)
        let ifInRange : Byte → Request → List Request := fun r q => if r.toNat < s.config.nreg then [q] else []
        stepRequests s = ((List.range (lengthOf i)).map fun k => Request.read (s.pc + BitVec.ofNat 16 k)) ++
          match i with
          | .out p r => ifInRange r (.write p (low r))
          | .load r a => ifInRange r (.read a)
          | .store r a => ifInRange r (.write a (low r))
          | .nop | .halt | .movi _ _ | .mov _ _ | .add _ _ | .sub _ _ | .cmp _ _ | .jmp _ | .jz _ | .jnz _ => [])

/-- An instruction whose opcode is at 0xFFFE takes its last bytes from 0x0000 and 0x0001 and leaves `pc` = 0x0002
(20_memory.md section 10, the spec's decision D4, log 5). -/
def Obligations.FetchWrapsAtTheTopOfMemory : Prop :=
  ∀ s : State, Wf s = true → s.halted = false → s.pc = 0xFFFE → s.memRead 0xFFFE = s.config.opc.movi →
    (s.memRead 0xFFFF).toNat < s.config.nreg → (s.memRead 0xFFFF).toNat ≠ s.config.pcIdx →
    ∃ t, step s = .next t ∧ t.pc = 0x0002 ∧
      (t.readReg (s.memRead 0xFFFF).toNat).toNat = (s.memRead 0x0001).toNat * 256 + (s.memRead 0x0000).toNat

/-! ### The guard -/

/-- An instruction with any register operand out of range answers the state it was given: no register, flag or memory
write at all (R76; that the whole effect is skipped is the spec's decision D8, log 9). -/
def Obligations.GuardSkipsWholeEffect : Prop :=
  ∀ (i : Instr) (r : Byte) (s : State), r ∈ registerOperands i → s.config.nreg ≤ r.toNat → exec i s = .next s

/-- An out-of-range register index raises nothing, records nothing, emits no event, does not halt and leaves the return value
true: the step only moves `pc` past the instruction (60_exceptions.md section 1). That no register and no byte changes is the guard's skip of
the whole effect, the spec's decision D8 on its conflict C2 (log 9), and the wrap of `pc` is its decision D4 (log 5). -/
def Obligations.OutOfRangeIndexIsSilent : Prop :=
  ∀ (s : State) (i : Instr) (rest : List Byte) (r : Byte), Wf s = true → s.halted = false →
    decode s.config.opc (s.bytesFrom s.pc 4) = .ok (i, rest) → r ∈ registerOperands i → s.config.nreg ≤ r.toNat →
    ∃ t, step s = .next t ∧ t.pc = s.pc + BitVec.ofNat 16 (lengthOf i) ∧
      RegistersKeptExcept [s.config.pcIdx] s t ∧ MemoryKept s t ∧ ControlKept s t ∧ stepReturns s = true

/-! ### System instructions -/

/-- NOP has no effect; the step moves `pc` by one and returns true; an unwritten byte is NOP under the default opcodes; and a stream of
`n` NOPs followed by HALT returns true once per NOP, then false, and no register other than PC changes (41_system.md, NOP). That `pc` goes
from 0xFFFF to 0x0000 is the spec's decision D4 (log 5), and the default opcodes are its decision D1 (log 2). -/
def Obligations.NopOnlyMovesPc : Prop :=
  (∀ s : State, exec .nop s = .next s) ∧
  (∀ s : State, Wf s = true → s.halted = false → s.memRead s.pc = s.config.opc.nop →
    ∃ t, step s = .next t ∧ t.pc = s.pc + 1 ∧ RegistersKeptExcept [s.config.pcIdx] s t ∧ MemoryKept s t ∧
      ControlKept s t ∧ stepReturns s = true) ∧
  decodeOpcode defaultOpcodes unwrittenByte = some .nop ∧
  ∀ (s : State) (n : Nat), Wf s = true → s.halted = false →
    (∀ k, k < n → s.memRead (s.pc + BitVec.ofNat 16 k) = s.config.opc.nop) →
    s.memRead (s.pc + BitVec.ofNat 16 n) = s.config.opc.halt →
    ∃ f : Nat → State, f 0 = s ∧ (∀ k, k ≤ n → step (f k) = .next (f (k + 1)) ∧ stepReturns (f k) = decide (k < n)) ∧
      ∀ k, k ≤ n + 1 → RegistersKeptExcept [s.config.pcIdx] s (f k) ∧ MemoryKept s (f k)

/-- HALT latches `halted` and changes nothing else (41_system.md, exec_HALT); the step leaves `pc` one past the opcode, which is the
spec's decision D15 (log 13), emits no event and returns false. -/
def Obligations.HaltLatches : Prop :=
  (∀ s : State, ∃ t, exec .halt s = .next t ∧ t.halted = true ∧ RegistersKeptExcept [] s t ∧ MemoryKept s t ∧
    t.config = s.config ∧ t.diagnostics = s.diagnostics) ∧
  ∀ s : State, Wf s = true → s.halted = false → s.memRead s.pc = s.config.opc.halt →
    ∃ t, step s = .next t ∧ t.halted = true ∧ t.pc = s.pc + 1 ∧ RegistersKeptExcept [s.config.pcIdx] s t ∧
      MemoryKept s t ∧ t.diagnostics = s.diagnostics ∧ stepReturns s = false

/-- R22: the latch is set by HALT and by an unknown opcode and by nothing else, cleared only by reset, and read at the start of a step;
no instruction reads or clears it, no register write and no memory write reaches it, and the host's load keeps it. -/
def Obligations.HaltedLatchIsSetByHaltAndUnknownOnly : Prop :=
  (∀ s t : State, s.halted = false → step s = .next t →
    (t.halted = true ↔ decodeOpcode s.config.opc (s.memRead s.pc) = some .halt ∨
      decodeOpcode s.config.opc (s.memRead s.pc) = none)) ∧
  (∀ s : State, s.halted = true → step s = .next s) ∧
  (∀ s : State, (hostReset s).halted = false) ∧
  (∀ (i : Instr) (s t : State) (b : Bool), exec i s = .next t →
    exec i { s with halted := b } = .next { t with halted := if i = .halt then true else b }) ∧
  (∀ (s : State) (j : Nat) (v : Word), (s.writeReg j v).halted = s.halted) ∧
  (∀ (s : State) (a : Word) (b : Byte), (s.memWrite a b).halted = s.halted) ∧
  ∀ (bytes : List Byte) (s t : State), hostLoad bytes s = .next t → t.halted = s.halted

/-! ### Register moves -/

/-- MOVI writes the immediate to its register and nothing else, flags included (42_move.md, exec_MOVI). The register may be PC or FL:
the spec's decision D7 (log 8). -/
def Obligations.MoviWritesImmediate : Prop :=
  ∀ (s : State) (reg : Byte) (imm16 : Word), Wf s = true → reg.toNat < s.config.nreg →
    ∃ t, exec (.movi reg imm16) s = .next t ∧ t.readReg reg.toNat = imm16 ∧
      RegistersKeptExcept [reg.toNat] s t ∧ MemoryKept s t ∧ ControlKept s t

/-- MOV copies the source register to the destination and changes nothing else (42_move.md, exec_MOV). Either may be PC or FL: the
spec's decision D7 (log 8). -/
def Obligations.MovCopiesRegister : Prop :=
  ∀ (s : State) (reg1 reg2 : Byte), Wf s = true → reg1.toNat < s.config.nreg → reg2.toNat < s.config.nreg →
    ∃ t, exec (.mov reg1 reg2) s = .next t ∧ t.readReg reg1.toNat = s.readReg reg2.toNat ∧
      RegistersKeptExcept [reg1.toNat] s t ∧ MemoryKept s t ∧ ControlKept s t

/-- A source operand that names PC reads as the address of the next instruction (40_fetch_decode.md section 3, under the spec's
decision D7, log 8). -/
def Obligations.PcOperandReadsNextAddress : Prop :=
  ∀ (s : State) (reg1 reg2 : Byte), Wf s = true → s.halted = false → reg1.toNat < s.config.nreg →
    reg2.toNat = s.config.pcIdx → s.bytesFrom s.pc 3 = [s.config.opc.mov, reg1, reg2] →
    ∃ t, step s = .next t ∧ t.readReg reg1.toNat = s.pc + 3 ∧ t.pc = s.pc + 3

/-! ### Arithmetic and compare -/

/-- ADD writes the sum modulo 65536 and sets Z by whether it is zero. Bits 15 to 1 of FL keep their value, or are the result's where FL is the
destination (43_alu.md, exec_ADD; the spec's decisions D5, D6, D7, log 6 to log 8). -/
def Obligations.AddWritesSumAndZ : Prop :=
  ∀ (s : State) (reg1 reg2 : Byte), Wf s = true → reg1.toNat < s.config.nreg → reg2.toNat < s.config.nreg →
    let r : Word := BitVec.ofNat 16 (((s.readReg reg1.toNat).toNat + (s.readReg reg2.toNat).toNat) % 65536)
    ∃ t, exec (.add reg1 reg2) s = .next t ∧ t.fl.getLsbD 0 = decide (r = 0) ∧
      (if reg1.toNat = s.config.flIdx then UpperFlagsKept r t.fl
        else t.readReg reg1.toNat = r ∧ UpperFlagsKept s.fl t.fl) ∧
      RegistersKeptExcept [reg1.toNat, s.config.flIdx] s t ∧ MemoryKept s t ∧ ControlKept s t

/-- SUB writes the difference modulo 65536 and sets Z exactly when the two operands were equal; FL's other bits as for ADD (43_alu.md,
exec_SUB; the spec's decisions D5, D6, D7, log 6 to log 8). -/
def Obligations.SubWritesDifferenceAndZ : Prop :=
  ∀ (s : State) (reg1 reg2 : Byte), Wf s = true → reg1.toNat < s.config.nreg → reg2.toNat < s.config.nreg →
    let u := (s.readReg reg1.toNat).toNat
    let v := (s.readReg reg2.toNat).toNat
    let r : Word := BitVec.ofNat 16 (if v ≤ u then u - v else u + 65536 - v)
    ∃ t, exec (.sub reg1 reg2) s = .next t ∧ t.fl.getLsbD 0 = decide (u = v) ∧
      (if reg1.toNat = s.config.flIdx then UpperFlagsKept r t.fl
        else t.readReg reg1.toNat = r ∧ UpperFlagsKept s.fl t.fl) ∧
      RegistersKeptExcept [reg1.toNat, s.config.flIdx] s t ∧ MemoryKept s t ∧ ControlKept s t

/-- CMP sets Z exactly when its operands are equal and changes nothing else: no register but FL, and of FL only bit 0 (43_alu.md, exec_CMP;
the spec's decisions D5 and D7, log 6, log 8). -/
def Obligations.CmpSetsZOnly : Prop :=
  ∀ (s : State) (reg1 reg2 : Byte), Wf s = true → reg1.toNat < s.config.nreg → reg2.toNat < s.config.nreg →
    ∃ t, exec (.cmp reg1 reg2) s = .next t ∧
      t.fl.getLsbD 0 = decide (s.readReg reg1.toNat = s.readReg reg2.toNat) ∧ UpperFlagsKept s.fl t.fl ∧
      RegistersKeptExcept [s.config.flIdx] s t ∧ MemoryKept s t ∧ ControlKept s t

/-- ADD with destination FL leaves 0x0001 if the result is zero, and the result with bit 0 cleared otherwise (43_alu.md, corner case (f)
of ADD: the spec's decision D6, log 7). -/
def Obligations.AddToFlagsRegister : Prop :=
  ∀ (s : State) (reg1 reg2 : Byte), Wf s = true → reg1.toNat = s.config.flIdx → reg2.toNat < s.config.nreg →
    ∃ t, exec (.add reg1 reg2) s = .next t ∧
      t.fl = if s.fl + s.readReg reg2.toNat = 0 then 0x0001 else (s.fl + s.readReg reg2.toNat) &&& 0xFFFE

/-- A general-purpose register as source and destination at once: ADD doubles it, SUB gives zero and sets Z, MOV changes nothing
(40_fetch_decode.md section 8, which the spec derives). -/
def Obligations.SameRegisterAsSourceAndDestination : Prop :=
  ∀ (s : State) (reg : Byte), Wf s = true → GeneralPurpose s reg.toNat = true →
    (∃ t, exec (.add reg reg) s = .next t ∧
      (t.readReg reg.toNat).toNat = 2 * (s.readReg reg.toNat).toNat % 65536) ∧
    (∃ t, exec (.sub reg reg) s = .next t ∧ t.readReg reg.toNat = 0 ∧ t.fl.getLsbD 0 = true) ∧
    exec (.mov reg reg) s = .next s

/-- The ALU's results are the sum and the difference modulo 65536, and the same bit patterns result when the operands are read as
two's-complement numbers (43_alu.md, the arithmetic laws; the second part is the spec's own derivation). -/
def Obligations.AluResultsWrapModulo65536 : Prop :=
  ∀ u v : Word,
    (addWrap u v).toNat = (u.toNat + v.toNat) % 65536 ∧
    (subWrap u v).toNat = (if v.toNat ≤ u.toNat then u.toNat - v.toNat else u.toNat + 65536 - v.toNat) ∧
    addWrap u v = BitVec.ofInt 16 (u.toInt + v.toInt) ∧ subWrap u v = BitVec.ofInt 16 (u.toInt - v.toInt)

/-- FL after an instruction that does not write FL through an operand: Z is set from the result by ADD, SUB and CMP that are not
guard-skipped, and kept by every other instruction; bits 15 to 1 stay (10_state.md section 4). That a skipped one keeps Z is the spec's decision
D8 (log 9), and that a flag update keeps bits 15 to 1 is its decision D5 (log 6). -/
def Obligations.ZFollowsFlagAffectingOperations : Prop :=
  ∀ (i : Instr) (s t : State), Wf s = true → (∀ r, destination i = some r → r.toNat ≠ s.config.flIdx) →
    exec i s = .next t →
    let x : Byte → Nat := fun r => (s.readReg r.toNat).toNat
    let ok : Byte → Byte → Prop := fun r1 r2 => r1.toNat < s.config.nreg ∧ r2.toNat < s.config.nreg
    (t.fl.getLsbD 0 = true ↔ match i with
      | .add r1 r2 => if r1.toNat < s.config.nreg ∧ r2.toNat < s.config.nreg then (x r1 + x r2) % 65536 = 0
          else s.fl.getLsbD 0 = true
      | .sub r1 r2 => (ok r1 r2 ∧ x r1 = x r2) ∨ (¬ ok r1 r2 ∧ s.fl.getLsbD 0 = true)
      | .cmp r1 r2 => (ok r1 r2 ∧ x r1 = x r2) ∨ (¬ ok r1 r2 ∧ s.fl.getLsbD 0 = true)
      | .nop | .halt | .movi _ _ | .mov _ _ | .jmp _ | .jz _ | .jnz _ | .out _ _ | .load _ _ | .store _ _ =>
          s.fl.getLsbD 0 = true) ∧
    UpperFlagsKept s.fl t.fl

/-! ### Control transfer -/

/-- R110: JMP sets `pc` to its address operand, any 16-bit value, kept as encoded whatever MEM_SIZE is, and changes nothing else; as a step,
from its three bytes, it returns true, and a jump to its own address repeats the state. -/
def Obligations.JmpSetsPc : Prop :=
  (∀ (s : State) (addr16 : Word), Wf s = true → ∃ t, exec (.jmp addr16) s = .next t ∧ t.pc = addr16 ∧
    RegistersKeptExcept [s.config.pcIdx] s t ∧ MemoryKept s t ∧ ControlKept s t) ∧
  ∀ (s : State) (lo hi : Byte), Wf s = true → s.halted = false → s.bytesFrom s.pc 3 = [s.config.opc.jmp, lo, hi] →
    ∃ t, step s = .next t ∧ t.pc.toNat = hi.toNat * 256 + lo.toNat ∧
      RegistersKeptExcept [s.config.pcIdx] s t ∧ MemoryKept s t ∧ ControlKept s t ∧ stepReturns s = true ∧
      (hi.toNat * 256 + lo.toNat = s.pc.toNat → t = s)

/-- R111: JZ sets `pc` to its address operand if bit 0 of FL is set, leaves `pc` past its three bytes otherwise, and changes nothing
else. Z is clear after reset, and a MOVI, MOV or LOAD that does not write FL keeps it, so a JZ after only such instructions is not
taken. -/
def Obligations.JzJumpsOnZ : Prop :=
  (∀ (s : State) (addr16 : Word), Wf s = true → ∃ t, exec (.jz addr16) s = .next t ∧
    t.pc = (if s.fl.getLsbD 0 = true then addr16 else s.pc) ∧
    RegistersKeptExcept [s.config.pcIdx] s t ∧ MemoryKept s t ∧ ControlKept s t) ∧
  (∀ (s : State) (lo hi : Byte), Wf s = true → s.halted = false → s.bytesFrom s.pc 3 = [s.config.opc.jz, lo, hi] →
    ∃ t, step s = .next t ∧
      t.pc.toNat = (if s.fl.getLsbD 0 = true then hi.toNat * 256 + lo.toNat else (s.pc.toNat + 3) % 65536) ∧
      RegistersKeptExcept [s.config.pcIdx] s t ∧ MemoryKept s t ∧ ControlKept s t ∧ stepReturns s = true) ∧
  (∀ s : State, (hostReset s).fl.getLsbD 0 = false) ∧
  ∀ (i : Instr) (reg : Byte) (s t : State), mnemonicOf i = .movi ∨ mnemonicOf i = .mov ∨ mnemonicOf i = .load →
    destination i = some reg → reg.toNat ≠ s.config.flIdx → exec i s = .next t → t.fl.getLsbD 0 = s.fl.getLsbD 0

/-- R112: JNZ sets `pc` to its address operand if bit 0 of FL is clear, as it is directly after reset, leaves `pc` past its three bytes
otherwise, and changes nothing else. -/
def Obligations.JnzJumpsOnNotZ : Prop :=
  (∀ (s : State) (addr16 : Word), Wf s = true → ∃ t, exec (.jnz addr16) s = .next t ∧
    t.pc = (if s.fl.getLsbD 0 = true then s.pc else addr16) ∧
    RegistersKeptExcept [s.config.pcIdx] s t ∧ MemoryKept s t ∧ ControlKept s t) ∧
  (∀ (s : State) (lo hi : Byte), Wf s = true → s.halted = false → s.bytesFrom s.pc 3 = [s.config.opc.jnz, lo, hi] →
    ∃ t, step s = .next t ∧
      t.pc.toNat = (if s.fl.getLsbD 0 = true then (s.pc.toNat + 3) % 65536 else hi.toNat * 256 + lo.toNat) ∧
      RegistersKeptExcept [s.config.pcIdx] s t ∧ MemoryKept s t ∧ ControlKept s t ∧ stepReturns s = true) ∧
  ∀ s : State, (hostReset s).fl.getLsbD 0 = false

/-! ### Memory and ports -/

/-- STORE and OUT write the low byte of the register to the cell their address names, and change nothing else (45_memory_io.md, exec_STORE
and exec_OUT; a register operand may be PC or FL by the spec's decision D7, log 8, and the cell is the address modulo MEM_SIZE by its
decision D3, log 4). -/
def Obligations.StoreAndOutWriteLowByte : Prop :=
  ∀ (s : State) (i : Instr) (reg : Byte) (addr : Word), Wf s = true → reg.toNat < s.config.nreg →
    i = .store reg addr ∨ i = .out addr reg →
    ∃ t, exec i s = .next t ∧
      t.byteAt (s.cellIndex addr) = BitVec.ofNat 8 ((s.readReg reg.toNat).toNat % 256) ∧
      MemoryKeptExcept (s.cellIndex addr) s t ∧ RegistersKeptExcept [] s t ∧ ControlKept s t

/-- LOAD writes the zero-extended byte to its register and changes nothing else, flags and Memory included (45_memory_io.md, exec_LOAD; the
register may be PC or FL by the spec's decision D7, log 8, and the byte is that of the cell the address modulo MEM_SIZE names, by its decision
D3, log 4). -/
def Obligations.LoadZeroExtendsByte : Prop :=
  ∀ (s : State) (reg : Byte) (addr16 : Word), Wf s = true → reg.toNat < s.config.nreg →
    ∃ t, exec (.load reg addr16) s = .next t ∧
      (t.readReg reg.toNat).toNat = (s.byteAt (s.cellIndex addr16)).toNat ∧
      RegistersKeptExcept [reg.toNat] s t ∧ MemoryKept s t ∧ ControlKept s t

/-- A port is plain memory: a LOAD of the address an OUT or a STORE has written reads the byte back (20_memory.md section 5,
45_memory_io.md). -/
def Obligations.LoadReadsBackOutAndStore : Prop :=
  ∀ (s t : State) (i : Instr) (reg reg' : Byte) (addr : Word), Wf s = true → reg.toNat < s.config.nreg →
    reg'.toNat < s.config.nreg → i = .store reg addr ∨ i = .out addr reg → exec i s = .next t →
    ∃ u, exec (.load reg' addr) t = .next u ∧ (u.readReg reg'.toNat).toNat = (s.readReg reg.toNat).toNat % 256

/-- A byte written by STORE or OUT is what the very next fetch of that cell gives (20_memory.md section 9, which the spec derives). Two addresses
name one cell when they are equal modulo MEM_SIZE, the spec's decision D3 (log 4), and the register may be PC or FL, its decision D7 (log 8). -/
def Obligations.StoreIsSeenByTheNextFetch : Prop :=
  ∀ (s t : State) (i : Instr) (reg : Byte) (addr : Word), Wf s = true → reg.toNat < s.config.nreg →
    i = .store reg addr ∨ i = .out addr reg → exec i s = .next t → t.cellIndex t.pc = s.cellIndex addr →
    t.fetch8.1.toNat = (s.readReg reg.toNat).toNat % 256

/-- A read gives the byte of the most recent write to the same cell, and the earlier contents if there is none, however many writes come
between (20_memory.md section 8; addresses equal modulo MEM_SIZE name one cell by the spec's decision D3, log 4). -/
def Obligations.ReadGivesTheMostRecentWrite : Prop :=
  ∀ (s : State) (writes : List (Word × Byte)) (a : Word), Wf s = true →
    (writes.foldl (fun u w => u.memWrite w.1 w.2) s).memRead a =
      match writes.reverse.find? fun w => decide (w.1.toNat % s.config.memSize = a.toNat % s.config.memSize) with
      | some w => w.2
      | none => s.memRead a

/-! ### What an instruction may change, over all instructions -/

/-- A general-purpose register is written only as the first register operand of MOVI, MOV, ADD, SUB or LOAD (10_state.md section 2, which
the spec derives). -/
def Obligations.OnlyTheDestinationIsWritten : Prop :=
  ∀ (i : Instr) (s t : State) (j : Nat), GeneralPurpose s j = true → exec i s = .next t → t.readReg j ≠ s.readReg j →
    ∃ r, r.toNat = j ∧ ((∃ v, i = .movi r v) ∨ (∃ r2, i = .mov r r2) ∨ (∃ r2, i = .add r r2) ∨ (∃ r2, i = .sub r r2) ∨
      ∃ a, i = .load r a)

/-- Only STORE and OUT change Memory, only when not guard-skipped, and only the one cell their address names (10_state.md section 9,
20_memory.md section 5). The cell is the address modulo MEM_SIZE, the spec's decision D3 (log 4), and that a skipped one changes nothing is its
decision D8 (log 9). -/
def Obligations.OnlyStoreAndOutChangeMemory : Prop :=
  ∀ (i : Instr) (s t : State) (n : Nat), Wf s = true → exec i s = .next t → t.byteAt n ≠ s.byteAt n →
    ∃ reg addr, (i = .store reg addr ∨ i = .out addr reg) ∧ reg.toNat < s.config.nreg ∧ n = s.cellIndex addr

/-- Nothing a step does changes the parameters, and the diagnostic channel gains the event of an unknown opcode in the step that meets it, and
nothing else (60_exceptions.md section 1; the event's content is the spec's decision D10, log 10, and the parameters' place in the state is
the model's, log 1). -/
def Obligations.StepKeepsParametersAndReportsOnce : Prop :=
  ∀ s t : State, step s = .next t → t.config = s.config ∧
    t.diagnostics = s.diagnostics ++
      (if s.halted = false ∧ decodeOpcode s.config.opc (s.memRead s.pc) = none
        then [.unknownOpcode (s.memRead s.pc) s.pc] else [])

/-- A step from a state that has met no fault ends in the normal halt by HALT and in a faulted state by an unknown opcode, so the record
tells the two apart (60_exceptions.md section 1, 70_reset_and_hazards.md section 3; recording the event in the state is the model's
choice, log 10). -/
def Obligations.FaultRecordTellsHaltFromUnknown : Prop :=
  ∀ s t : State, Faulted s = false → s.halted = false → step s = .next t →
    (HaltedNormally t = true ↔ decodeOpcode s.config.opc (s.memRead s.pc) = some .halt) ∧
    (Faulted t = true ↔ decodeOpcode s.config.opc (s.memRead s.pc) = none)

/-- In every step, halted and unknown-opcode steps included, bits 15 to 1 of FL stay unless the instruction it runs has FL as its destination, so
that FL stays 0x0000 or 0x0001 from reset on (10_state.md section 4; the spec's decision D5, log 6). -/
def Obligations.UpperFlagBitsStay : Prop :=
  ∀ s t : State, Wf s = true →
    (∀ (i : Instr) (rest : List Byte), s.halted = false → decode s.config.opc (s.bytesFrom s.pc 4) = .ok (i, rest) →
      ∀ r, destination i = some r → r.toNat ≠ s.config.flIdx) →
    step s = .next t →
    UpperFlagsKept s.fl t.fl ∧ (s.fl = 0 ∨ s.fl = 1 → t.fl = 0 ∨ t.fl = 1)

/-- A general-purpose register that the instruction at `pc` does not name cannot influence the step: changing it before the step is changing
it after (10_state.md section 9). -/
def Obligations.UnnamedRegisterDoesNotInterfere : Prop :=
  ∀ (s : State) (i : Instr) (rest : List Byte) (k : Nat) (v : Word), Wf s = true → s.halted = false →
    GeneralPurpose s k = true → decode s.config.opc (s.bytesFrom s.pc 4) = .ok (i, rest) →
    (∀ r ∈ registerOperands i, r.toNat ≠ k) →
    ∃ t, step s = .next t ∧ step (s.writeReg k v) = .next (t.writeReg k v)

/-! ### Invariants, reset and the host's moves -/

/-- Every step keeps a well-formed state well-formed: admissible parameters, a register file of NREG entries, Memory canonical and within
its capacity (10_state.md sections 2 and 6). The canonical form is the model's (log 15). -/
def Obligations.StepKeepsWellFormed : Prop :=
  ∀ s t : State, Wf s = true → step s = .next t → Wf t = true

/-- The machine right after reset is well-formed, and is the launch of an empty image under the spec's default parameters (log 2 to log 4). -/
def Obligations.ResetIsWellFormed : Prop :=
  Wf State.reset = true ∧ launch defaultConfig [] = .next State.reset

/-- R140: `reset` zeroes every register, hence PC, FL and Z, and clears the halted latch, from every state, halted or not. -/
def Obligations.ResetZeroesRegistersAndLatch : Prop :=
  ∀ s : State, (∀ i, (hostReset s).readReg i = 0) ∧ (hostReset s).pc = 0 ∧ (hostReset s).fl = 0 ∧
    (hostReset s).zeroFlag = false ∧ (hostReset s).halted = false ∧ (hostReset s).regs.length = s.config.nreg

/-- `reset` leaves Memory and the parameters alone, and a well-formed state well-formed (70_reset_and_hazards.md section 1: the spec's decision
D14; that the diagnostic channel keeps what went out is the model's choice, log 12). -/
def Obligations.ResetKeepsMemory : Prop :=
  ∀ s : State, MemoryKept s (hostReset s) ∧ (hostReset s).config = s.config ∧
    (hostReset s).diagnostics = s.diagnostics ∧ (Wf s = true → Wf (hostReset s) = true)

/-- `load` copies its bytes to the start of Memory, keeps the bytes beyond, the registers and the latch, and refuses bytes that do not
fit (20_memory.md section 2; the spec's decisions D11 and D13, log 11). -/
def Obligations.LoadCopiesImageOrRefuses : Prop :=
  ∀ (bytes : List Byte) (s : State), Wf s = true →
    if bytes.length ≤ s.config.memSize then
      ∃ t, hostLoad bytes s = .next t ∧ (∀ n, t.byteAt n = if n < bytes.length then bytes.getD n 0 else s.byteAt n) ∧
        RegistersKeptExcept [] s t ∧ ControlKept s t ∧ Wf t = true
    else hostLoad bytes s = .refused .imageTooLong

/-- The launch state of a run: every register zero, not halted, Memory the image followed by zeros, and the first byte of the image the first
opcode fetched (70_reset_and_hazards.md section 2; an image that does not fit is refused by the spec's decision D11, log 11). -/
def Obligations.LaunchGivesTheLaunchState : Prop :=
  ∀ (c : Config) (image : List Byte), c.wellFormed = true → image.length ≤ c.memSize →
    ∃ t, launch c image = .next t ∧ Wf t = true ∧ t.config = c ∧ (∀ i, t.readReg i = 0) ∧ t.halted = false ∧
      t.diagnostics = [] ∧ (∀ n, t.byteAt n = image.getD n 0) ∧ t.fetch8.1 = image.getD 0 0

/-- `snapshot` gives the bytes of Memory, cell by cell, MEM_SIZE of them (20_memory.md section 2). -/
def Obligations.SnapshotGivesEveryByte : Prop :=
  ∀ s : State, (hostSnapshot s).length = s.config.memSize ∧
    ∀ n, n < s.config.memSize → (hostSnapshot s).getD n 0 = s.byteAt n
end

