-- ==== Sys2Proof/Laws/Decode.lean ====
section
/-! SUPPORT. The laws of the byte order and of the opcode map. -/

namespace Sys2Proof

@[simp] theorem wordOfBytes_low_high (w : Word) : wordOfBytes (lowByte w) (highByte w) = w := by
  unfold wordOfBytes lowByte highByte
  apply BitVec.eq_of_getLsbD_eq
  intro k hk
  rw [BitVec.getLsbD_append]
  by_cases h : k < 8 <;> simp [h]
  · have : k - 8 < 8 := by omega
    simp [this, show 8 + (k - 8) = k by omega]

@[simp] theorem lowByte_wordOfBytes (lo hi : Byte) : lowByte (wordOfBytes lo hi) = lo := by
  unfold wordOfBytes lowByte
  apply BitVec.eq_of_getLsbD_eq
  intro k hk
  rw [BitVec.getLsbD_extractLsb', BitVec.getLsbD_append]
  simp [hk]

@[simp] theorem highByte_wordOfBytes (lo hi : Byte) : highByte (wordOfBytes lo hi) = hi := by
  unfold wordOfBytes highByte
  apply BitVec.eq_of_getLsbD_eq
  intro k hk
  rw [BitVec.getLsbD_extractLsb', BitVec.getLsbD_append]
  simp [hk]

/-- `{hi, lo}` = hi * 256 + lo (R52). -/
theorem wordOfBytes_toNat (lo hi : Byte) : (wordOfBytes lo hi).toNat = hi.toNat * 256 + lo.toNat := by
  unfold wordOfBytes
  rw [BitVec.toNat_append, ← Nat.shiftLeft_add_eq_or_of_lt lo.isLt, Nat.shiftLeft_eq]

/-- A recognised opcode byte is the one the map gives its variant. -/
theorem opcodeOf_of_decodeOpcode {opc : OpcodeMap} {op : Byte} {m : Mnemonic} (h : decodeOpcode opc op = some m) :
    opcodeOf opc m = op := by
  simpa using List.find?_some h

theorem mem_allMnemonics (m : Mnemonic) : m ∈ allMnemonics := by cases m <;> decide

theorem opcodeMap_values_eq (opc : OpcodeMap) : opc.values = allMnemonics.map (opcodeOf opc) := rfl

/-- An injective map gives different variants different bytes (R4). -/
theorem opcodeOf_injective {opc : OpcodeMap} (h : opc.wellFormed = true) {m m' : Mnemonic}
    (e : opcodeOf opc m = opcodeOf opc m') : m = m' := by
  have hn : (allMnemonics.map (opcodeOf opc)).Nodup := by
    rw [← opcodeMap_values_eq]
    exact of_decide_eq_true h
  exact List.inj_on_of_nodup_map hn (mem_allMnemonics m) (mem_allMnemonics m') e

/-- Under an injective map each variant's byte selects it. -/
theorem decodeOpcode_opcodeOf {opc : OpcodeMap} (h : opc.wellFormed = true) (m : Mnemonic) :
    decodeOpcode opc (opcodeOf opc m) = some m := by
  cases hd : decodeOpcode opc (opcodeOf opc m) with
  | none =>
    have := List.find?_eq_none.1 hd m (mem_allMnemonics m)
    simp at this
  | some m' => rw [opcodeOf_injective h (opcodeOf_of_decodeOpcode hd)]

end Sys2Proof
end

