-- ==== Sys2Proof/Laws/State.lean ====
section
/-! SUPPORT. One lemma per field per update of State, all true by definition. -/

namespace Sys2Proof.Machine

variable (s : State) (i : Nat) (v : Word) (a : Word) (b : Byte)

@[simp] theorem State.writeReg_config : (s.writeReg i v).config = s.config := rfl
@[simp] theorem State.writeReg_regs : (s.writeReg i v).regs = s.regs.set i v := rfl
@[simp] theorem State.writeReg_halted : (s.writeReg i v).halted = s.halted := rfl
@[simp] theorem State.writeReg_mem : (s.writeReg i v).mem = s.mem := rfl
@[simp] theorem State.writeReg_diagnostics : (s.writeReg i v).diagnostics = s.diagnostics := rfl
@[simp] theorem State.writeReg_byteAt (n : Nat) : (s.writeReg i v).byteAt n = s.byteAt n := rfl
@[simp] theorem State.writeReg_cellIndex : (s.writeReg i v).cellIndex a = s.cellIndex a := rfl
@[simp] theorem State.writeReg_memRead : (s.writeReg i v).memRead a = s.memRead a := rfl
@[simp] theorem State.writeReg_bytesFrom (n : Nat) : (s.writeReg i v).bytesFrom a n = s.bytesFrom a n := rfl
@[simp] theorem State.writeReg_inRange : (s.writeReg i v).inRange b = s.inRange b := rfl
@[simp] theorem State.writeOperand_eq : s.writeOperand b v = s.writeReg b.toNat v := rfl
@[simp] theorem State.operand_eq : s.operand b = s.readReg b.toNat := rfl

@[simp] theorem State.setPc_config : (s.setPc v).config = s.config := rfl
@[simp] theorem State.setPc_regs : (s.setPc v).regs = s.regs.set s.config.pcIdx v := rfl
@[simp] theorem State.setPc_halted : (s.setPc v).halted = s.halted := rfl
@[simp] theorem State.setPc_mem : (s.setPc v).mem = s.mem := rfl
@[simp] theorem State.setPc_diagnostics : (s.setPc v).diagnostics = s.diagnostics := rfl
@[simp] theorem State.setPc_byteAt (n : Nat) : (s.setPc v).byteAt n = s.byteAt n := rfl
@[simp] theorem State.setPc_cellIndex : (s.setPc v).cellIndex a = s.cellIndex a := rfl
@[simp] theorem State.setPc_memRead : (s.setPc v).memRead a = s.memRead a := rfl
@[simp] theorem State.setPc_bytesFrom (n : Nat) : (s.setPc v).bytesFrom a n = s.bytesFrom a n := rfl
@[simp] theorem State.setPc_inRange : (s.setPc v).inRange b = s.inRange b := rfl

@[simp] theorem State.setFl_config : (s.setFl v).config = s.config := rfl
@[simp] theorem State.setFl_regs : (s.setFl v).regs = s.regs.set s.config.flIdx v := rfl
@[simp] theorem State.setFl_halted : (s.setFl v).halted = s.halted := rfl
@[simp] theorem State.setFl_mem : (s.setFl v).mem = s.mem := rfl
@[simp] theorem State.setFl_diagnostics : (s.setFl v).diagnostics = s.diagnostics := rfl
@[simp] theorem State.setFl_byteAt (n : Nat) : (s.setFl v).byteAt n = s.byteAt n := rfl
@[simp] theorem State.setFl_cellIndex : (s.setFl v).cellIndex a = s.cellIndex a := rfl
@[simp] theorem State.setFl_memRead : (s.setFl v).memRead a = s.memRead a := rfl

@[simp] theorem State.setZ_config : (s.setZ v).config = s.config := rfl
@[simp] theorem State.setZ_regs : (s.setZ v).regs = s.regs.set s.config.flIdx (flagUpdate s.fl v) := rfl
@[simp] theorem State.setZ_halted : (s.setZ v).halted = s.halted := rfl
@[simp] theorem State.setZ_mem : (s.setZ v).mem = s.mem := rfl
@[simp] theorem State.setZ_diagnostics : (s.setZ v).diagnostics = s.diagnostics := rfl
@[simp] theorem State.setZ_byteAt (n : Nat) : (s.setZ v).byteAt n = s.byteAt n := rfl

@[simp] theorem State.memWrite_config : (s.memWrite a b).config = s.config := rfl
@[simp] theorem State.memWrite_regs : (s.memWrite a b).regs = s.regs := rfl
@[simp] theorem State.memWrite_halted : (s.memWrite a b).halted = s.halted := rfl
@[simp] theorem State.memWrite_mem : (s.memWrite a b).mem = s.mem.store (s.cellIndex a) b := rfl
@[simp] theorem State.memWrite_diagnostics : (s.memWrite a b).diagnostics = s.diagnostics := rfl
@[simp] theorem State.memWrite_readReg : (s.memWrite a b).readReg i = s.readReg i := rfl
@[simp] theorem State.memWrite_pc : (s.memWrite a b).pc = s.pc := rfl
@[simp] theorem State.memWrite_fl : (s.memWrite a b).fl = s.fl := rfl
@[simp] theorem State.memWrite_cellIndex (a' : Word) : (s.memWrite a b).cellIndex a' = s.cellIndex a' := rfl

@[simp] theorem State.halt_config : s.halt.config = s.config := rfl
@[simp] theorem State.halt_regs : s.halt.regs = s.regs := rfl
@[simp] theorem State.halt_halted : s.halt.halted = true := rfl
@[simp] theorem State.halt_mem : s.halt.mem = s.mem := rfl
@[simp] theorem State.halt_diagnostics : s.halt.diagnostics = s.diagnostics := rfl
@[simp] theorem State.halt_readReg : s.halt.readReg i = s.readReg i := rfl
@[simp] theorem State.halt_byteAt (n : Nat) : s.halt.byteAt n = s.byteAt n := rfl

@[simp] theorem State.raiseUnknownOpcode_config : (s.raiseUnknownOpcode b a).config = s.config := rfl
@[simp] theorem State.raiseUnknownOpcode_regs : (s.raiseUnknownOpcode b a).regs = s.regs := rfl
@[simp] theorem State.raiseUnknownOpcode_halted : (s.raiseUnknownOpcode b a).halted = true := rfl
@[simp] theorem State.raiseUnknownOpcode_mem : (s.raiseUnknownOpcode b a).mem = s.mem := rfl
@[simp] theorem State.raiseUnknownOpcode_diagnostics :
    (s.raiseUnknownOpcode b a).diagnostics = s.diagnostics ++ [.unknownOpcode b a] := rfl
@[simp] theorem State.raiseUnknownOpcode_readReg :
    (s.raiseUnknownOpcode b a).readReg i = s.readReg i := rfl
@[simp] theorem State.raiseUnknownOpcode_byteAt (n : Nat) :
    (s.raiseUnknownOpcode b a).byteAt n = s.byteAt n := rfl

@[simp] theorem hostReset_config : (hostReset s).config = s.config := rfl
@[simp] theorem hostReset_regs : (hostReset s).regs = List.replicate s.config.nreg 0 := rfl
@[simp] theorem hostReset_halted : (hostReset s).halted = false := rfl
@[simp] theorem hostReset_mem : (hostReset s).mem = s.mem := rfl
@[simp] theorem hostReset_diagnostics : (hostReset s).diagnostics = s.diagnostics := rfl

end Sys2Proof.Machine
end

