-- ==== Sys2Proof/Laws/Registers.lean ====
section
/-! SUPPORT. The laws of the register file, of the flag update and of the guard. -/

namespace Sys2Proof.Machine

variable {s : State} {i j : Nat} {v w : Word}

/-! ### Reading after writing -/

theorem State.readReg_writeReg : (s.writeReg i v).readReg j = if i = j ∧ j < s.regs.length then v else s.readReg j := by
  simp only [State.readReg, State.writeReg_regs, List.getD_eq_getElem?_getD, List.getElem?_set]
  by_cases e : i = j
  · subst e
    by_cases h : i < s.regs.length <;> simp [h]
  · simp [e]

theorem State.readReg_writeReg_self (h : i < s.regs.length) : (s.writeReg i v).readReg i = v := by
  simp [State.readReg_writeReg, h]

theorem State.readReg_writeReg_ne (h : i ≠ j) : (s.writeReg i v).readReg j = s.readReg j := by
  simp [State.readReg_writeReg, h]

@[simp] theorem State.writeReg_writeReg : (s.writeReg i v).writeReg i w = s.writeReg i w := by
  simp [State.writeReg]

theorem State.writeReg_comm (h : i ≠ j) : (s.writeReg i v).writeReg j w = (s.writeReg j w).writeReg i v := by
  simp [State.writeReg, List.set_comm _ _ h]

@[simp] theorem State.writeReg_readReg : s.writeReg i (s.readReg i) = s := by
  obtain ⟨c, regs, hl, m, d⟩ := s
  by_cases h : i < regs.length
  · simp [State.writeReg, State.readReg, h]
  · simp [State.writeReg, List.set_eq_of_length_le (Nat.le_of_not_lt h)]

theorem State.pc_setPc (h : s.config.pcIdx < s.regs.length) : (s.setPc v).pc = v :=
  State.readReg_writeReg_self h

@[simp] theorem State.setPc_setPc : (s.setPc v).setPc w = s.setPc w := State.writeReg_writeReg

@[simp] theorem State.setPc_pc_self : s.setPc s.pc = s := State.writeReg_readReg

theorem State.fl_setFl (h : s.config.flIdx < s.regs.length) : (s.setFl v).fl = v :=
  State.readReg_writeReg_self h

/-! ### The flag update (R20, R81) -/

theorem State.zeroFlag_eq (s : State) : s.zeroFlag = s.fl.getLsbD 0 := rfl

/-- Bit 0 after a flag update says whether the result is zero. -/
theorem flagUpdate_bit_zero (fl r : Word) : (flagUpdate fl r).getLsbD 0 = decide (r = 0) := by
  have mask : BitVec.getLsbD (0xFFFE : Word) 0 = false := by decide
  rw [flagUpdate, BitVec.getLsbD_or, BitVec.getLsbD_and, mask, Bool.and_false, Bool.false_or]
  by_cases h : r = 0
  · rw [if_pos h, decide_eq_true h]
    decide
  · rw [if_neg h, decide_eq_false h]
    decide

/-- Bits 15 to 1 stay. -/
theorem flagUpdate_upper (fl r : Word) {k : Nat} (hk : 0 < k) : (flagUpdate fl r).getLsbD k = fl.getLsbD k := by
  by_cases h16 : k < 16
  · have mask : BitVec.getLsbD (0xFFFE : Word) k = true ∧ BitVec.getLsbD (1 : Word) k = false ∧
        BitVec.getLsbD (0 : Word) k = false := by
      interval_cases k <;> decide
    rw [flagUpdate, BitVec.getLsbD_or, BitVec.getLsbD_and, mask.1, Bool.and_true]
    split <;> simp only [mask.2.1, mask.2.2, Bool.or_false]
  · rw [BitVec.getLsbD_of_ge _ k (by omega), BitVec.getLsbD_of_ge _ k (by omega)]

/-! ### The guard (R76) -/

theorem State.guarded_of_inRange {ops : List Byte} {body : State → State} (h : ∀ r ∈ ops, s.inRange r = true) :
    s.guarded ops body = body s := by
  simp only [State.guarded, List.all_eq_true.2 h, if_true]

theorem State.guarded_of_not_inRange {ops : List Byte} {body : State → State} {r : Byte} (hr : r ∈ ops)
    (h : s.inRange r = false) : s.guarded ops body = s := by
  have : ops.all s.inRange = false := by
    simp only [List.all_eq_false]
    exact ⟨r, hr, by simp [h]⟩
  simp [State.guarded, this]

/-- All a guarded body can do: run, or leave the state. -/
theorem State.guarded_cases (s : State) (ops : List Byte) (body : State → State) :
    s.guarded ops body = body s ∨ s.guarded ops body = s := by
  unfold State.guarded
  split
  · exact .inl rfl
  · exact .inr rfl

end Sys2Proof.Machine
end

