-- ==== Sys2Proof/Laws/Fetch.lean ====
section
/-! SUPPORT. What a fetch gives, and that it changes nothing but `pc`. -/

namespace Sys2Proof.Machine

variable {s : State}

@[simp] theorem State.fetch8_byte : s.fetch8.1 = s.memRead s.pc := rfl
@[simp] theorem State.fetch8_state : s.fetch8.2 = s.setPc (s.pc + 1) := rfl

@[simp] theorem State.bytesFrom_zero (a : Word) : s.bytesFrom a 0 = [] := rfl

theorem State.bytesFrom_succ (a : Word) (n : Nat) :
    s.bytesFrom a (n + 1) = s.memRead a :: s.bytesFrom (a + 1) n := by
  simp only [State.bytesFrom, List.range_succ_eq_map, List.map_cons, List.map_map, List.cons.injEq]
  refine ⟨by simp, List.map_congr_left fun k _ => ?_⟩
  simp only [Function.comp]
  congr 1
  rw [BitVec.add_assoc]
  congr 1
  apply BitVec.eq_of_toNat_eq
  simp [Nat.add_comm]

@[simp] theorem State.bytesFrom_length (a : Word) (n : Nat) : (s.bytesFrom a n).length = n := by
  simp [State.bytesFrom]

/-- `n` fetches give the `n` bytes at `pc`, and move `pc` past them (R53, R72, R73). -/
theorem State.fetchBytes_eq (h : s.config.pcIdx < s.regs.length) (n : Nat) :
    State.fetchBytes n s = (s.bytesFrom s.pc n, s.setPc (s.pc + BitVec.ofNat 16 n)) := by
  induction n generalizing s with
  | zero => simp [State.fetchBytes]
  | succ n ih =>
    have h' : (s.setPc (s.pc + 1)).config.pcIdx < (s.setPc (s.pc + 1)).regs.length := by simpa using h
    simp only [State.fetchBytes, State.fetch8_byte, State.fetch8_state, ih h', State.pc_setPc h,
      State.bytesFrom_succ, State.setPc_bytesFrom, State.setPc_setPc, BitVec.add_assoc]
    congr 3
    apply BitVec.eq_of_toNat_eq
    simp [Nat.add_comm]

/-- Phases 2 and 3 on a recognised opcode: the instruction its operand bytes give, and `pc` past them (R70, R75). -/
theorem State.fetchInstr_of_known (h : s.config.pcIdx < s.regs.length) {m : Mnemonic}
    (hm : decodeOpcode s.config.opc (s.memRead s.pc) = some m) :
    s.fetchInstr = (.ok (decodeOperands m (s.bytesFrom (s.pc + 1) (operandCount m))),
      s.setPc (s.pc + BitVec.ofNat 16 (1 + operandCount m))) := by
  have h' : (s.setPc (s.pc + 1)).config.pcIdx < (s.setPc (s.pc + 1)).regs.length := by simpa using h
  simp only [State.fetchInstr, State.fetch8_byte, State.fetch8_state, hm, State.fetchBytes_eq h',
    State.pc_setPc h, State.setPc_bytesFrom, State.setPc_setPc, BitVec.add_assoc]
  congr 3
  apply BitVec.eq_of_toNat_eq
  simp

/-- Phases 2 and 3 on an unrecognised opcode: the byte alone, and `pc` past it (R121). -/
theorem State.fetchInstr_of_unknown (hm : decodeOpcode s.config.opc (s.memRead s.pc) = none) :
    s.fetchInstr = (.error (s.memRead s.pc), s.setPc (s.pc + 1)) := by
  simp only [State.fetchInstr, State.fetch8_byte, State.fetch8_state, hm]

/-- All a fetch can do. -/
theorem State.fetchInstr_cases (h : s.config.pcIdx < s.regs.length) :
    (∃ m, decodeOpcode s.config.opc (s.memRead s.pc) = some m ∧
      s.fetchInstr = (.ok (decodeOperands m (s.bytesFrom (s.pc + 1) (operandCount m))),
        s.setPc (s.pc + BitVec.ofNat 16 (1 + operandCount m)))) ∨
    (decodeOpcode s.config.opc (s.memRead s.pc) = none ∧
      s.fetchInstr = (.error (s.memRead s.pc), s.setPc (s.pc + 1))) := by
  cases hm : decodeOpcode s.config.opc (s.memRead s.pc) with
  | none => exact .inr ⟨rfl, State.fetchInstr_of_unknown hm⟩
  | some m => exact .inl ⟨m, rfl, State.fetchInstr_of_known h hm⟩

end Sys2Proof.Machine
end

