-- ==== Sys2Proof/Laws/Memory.lean ====
section
/-! SUPPORT. The laws of Memory: what a read gives after a write, and that every operation keeps the canonical form. -/

namespace Sys2Proof.Machine

/-! ### The canonical form, read as facts -/

theorem Memory.wf_nil : Memory.wf [] = true := rfl

theorem Memory.wf_cons {c : Host.Cell} {m : Memory} :
    Memory.wf (c :: m) = true ↔ (∀ d ∈ m, c.1 < d.1) ∧ c.2 ≠ unwrittenByte ∧ Memory.wf m = true := by
  simp only [Memory.wf, Bool.and_eq_true, decide_eq_true_eq, List.pairwise_cons, List.all_cons, bne_iff_ne]
  tauto

theorem Memory.within_cons {size : Nat} {c : Host.Cell} {m : Memory} :
    Memory.within size (c :: m) = true ↔ c.1 < size ∧ Memory.within size m = true := by
  simp [Memory.within]

theorem Memory.lookup_cons (c : Host.Cell) (m : Memory) (n : Nat) :
    Memory.lookup (c :: m) n = if c.1 = n then c.2 else Memory.lookup m n := rfl

/-- An index that no entry has reads as an unwritten byte. -/
theorem Memory.lookup_of_not_listed {m : Memory} {n : Nat} (h : ∀ d ∈ m, d.1 ≠ n) :
    Memory.lookup m n = unwrittenByte := by
  induction m with
  | nil => rfl
  | cons c m ih =>
    simp only [Memory.lookup, h c (by simp), if_false]
    exact ih fun d hd => h d (by simp [hd])

/-! ### What a store can list -/

/-- Every entry after a store is the stored one or was there before. -/
theorem Memory.mem_store {m : Memory} {n : Nat} {b : Byte} {d : Host.Cell} (h : d ∈ Memory.store m n b) :
    d = (n, b) ∨ d ∈ m := by
  induction m with
  | nil =>
    simp only [Memory.store] at h
    split at h <;> simp_all
  | cons c m ih =>
    simp only [Memory.store] at h
    split_ifs at h <;> simp only [List.mem_cons] at h ⊢ <;> tauto

/-- A store keeps the canonical form. -/
theorem Memory.store_wf {m : Memory} (h : Memory.wf m = true) (n : Nat) (b : Byte) :
    Memory.wf (Memory.store m n b) = true := by
  induction m with
  | nil =>
    simp only [Memory.store]
    split
    · rfl
    · exact Memory.wf_cons.2 ⟨by simp, by assumption, rfl⟩
  | cons c m ih =>
    have hc := h
    obtain ⟨hlt, hb, hm⟩ := Memory.wf_cons.1 h
    simp only [Memory.store]
    split_ifs with h1 h2 h3 h3
    · refine Memory.wf_cons.2 ⟨fun d hd => ?_, hb, ih hm⟩
      rcases Memory.mem_store hd with rfl | hd
      · exact h1
      · exact hlt d hd
    · exact hm
    · exact hc
    · exact Memory.wf_cons.2 ⟨fun d hd => h3 ▸ hlt d hd, by assumption, hm⟩
    · refine Memory.wf_cons.2 ⟨fun d hd => ?_, by assumption, hc⟩
      have h4 : n < c.1 := by omega
      rcases List.mem_cons.1 hd with rfl | hd
      · exact h4
      · exact Nat.lt_trans h4 (hlt d hd)

/-- A store below the capacity keeps Memory within it. -/
theorem Memory.store_within {size : Nat} {m : Memory} (h : Memory.within size m = true) {n : Nat} (hn : n < size) (b : Byte) :
    Memory.within size (Memory.store m n b) = true := by
  simp only [Memory.within, List.all_eq_true, decide_eq_true_eq] at h ⊢
  intro d hd
  rcases Memory.mem_store hd with rfl | hd
  · exact hn
  · exact h d hd

/-! ### Reading after writing -/

/-- Once for all what a read gives after a store into Memory in canonical form. -/
theorem Memory.lookup_store {m : Memory} (h : Memory.wf m = true) (n : Nat) (b : Byte) (n' : Nat) :
    Memory.lookup (Memory.store m n b) n' = if n' = n then b else Memory.lookup m n' := by
  induction m with
  | nil =>
    simp only [Memory.store]
    split_ifs with hb hn hn <;> simp only [Memory.lookup]
    · exact hb.symm
    · exact if_pos hn.symm
    · exact if_neg (Ne.symm hn)
  | cons c m ih =>
    obtain ⟨hlt, -, hm⟩ := Memory.wf_cons.1 h
    have absent : n ≤ c.1 → Memory.lookup m n = unwrittenByte := fun e =>
      Memory.lookup_of_not_listed fun d hd => by have := hlt d hd; omega
    by_cases h1 : c.1 < n
    · simp only [Memory.store, if_pos h1, Memory.lookup_cons, ih hm]
      split_ifs <;> first | rfl | omega
    · have none := absent (by omega)
      have dropped : Memory.lookup (if c.1 = n then m else c :: m) n' =
          if n' = n then unwrittenByte else Memory.lookup (c :: m) n' := by
        simp only [Memory.lookup_cons]
        split_ifs <;> (try simp only [Memory.lookup_cons]) <;> (try split_ifs) <;>
          first | rfl | omega | simp_all
      simp only [Memory.store, if_neg h1]
      by_cases hb : b = unwrittenByte
      · rw [if_pos hb, dropped, hb]
      · rw [if_neg hb, Memory.lookup_cons, dropped]
        split_ifs <;> first | rfl | omega

@[simp] theorem Memory.lookup_store_self {m : Memory} (h : Memory.wf m = true) (n : Nat) (b : Byte) :
    Memory.lookup (Memory.store m n b) n = b := by
  simp [Memory.lookup_store h]

theorem Memory.lookup_store_ne {m : Memory} (h : Memory.wf m = true) {n n' : Nat} (hn : n' ≠ n) (b : Byte) :
    Memory.lookup (Memory.store m n b) n' = Memory.lookup m n' := by
  simp [Memory.lookup_store h, hn]

/-! ### Sequences of bytes -/

theorem Memory.storeAll_wf {m : Memory} (h : Memory.wf m = true) (n : Nat) (bs : List Byte) :
    Memory.wf (Memory.storeAll m n bs) = true := by
  induction bs generalizing m n with
  | nil => exact h
  | cons b bs ih => exact ih (Memory.store_wf h n b) (n + 1)

theorem Memory.storeAll_within {size : Nat} {m : Memory} (h : Memory.within size m = true) {n : Nat} {bs : List Byte}
    (hn : n + bs.length ≤ size) : Memory.within size (Memory.storeAll m n bs) = true := by
  induction bs generalizing m n with
  | nil => exact h
  | cons b bs ih =>
    simp only [List.length_cons] at hn
    exact ih (Memory.store_within h (by omega) b) (by omega)

/-- What a read gives after a sequence of bytes has been stored from index `n` on. -/
theorem Memory.lookup_storeAll {m : Memory} (h : Memory.wf m = true) (n : Nat) (bs : List Byte) (n' : Nat) :
    Memory.lookup (Memory.storeAll m n bs) n' =
      if n ≤ n' ∧ n' < n + bs.length then bs.getD (n' - n) 0 else Memory.lookup m n' := by
  induction bs generalizing m n with
  | nil => simp [Memory.storeAll]
  | cons b bs ih =>
    rw [Memory.storeAll, ih (Memory.store_wf h n b), Memory.lookup_store h, List.length_cons]
    by_cases e : n' = n
    · subst e
      simp
    · by_cases hlt : n + 1 ≤ n' ∧ n' < n + 1 + bs.length
      · rw [if_pos hlt, if_pos (by omega), show n' - n = n' - (n + 1) + 1 by omega, List.getD_cons_succ]
      · rw [if_neg hlt, if_neg e, if_neg (by omega)]

/-- Writing a byte of the address space keeps Memory canonical and within its capacity. -/
theorem State.memWrite_keeps_memory {s : State} (hw : Memory.wf s.mem = true)
    (hi : Memory.within s.config.memSize s.mem = true) (hsize : 1 ≤ s.config.memSize) (a : Word) (b : Byte) :
    Memory.wf (s.memWrite a b).mem = true ∧ Memory.within s.config.memSize (s.memWrite a b).mem = true :=
  ⟨Memory.store_wf hw _ b, Memory.store_within hi (Nat.mod_lt _ hsize) b⟩

/-- Memory right after reset has the canonical form. -/
theorem reset_memory_wf : Memory.wf State.reset.mem = true := rfl

end Sys2Proof.Machine
end

