-- ==== Sys2Proof/Laws/HostMoves.lean ====
section
/-! SUPPORT. All that the host's `load` can do, and that stored instruction bytes keep Memory canonical. -/

namespace Sys2Proof.Machine

theorem hostLoad_cases (bytes : List Byte) (s : State) :
    (s.config.memSize < bytes.length ∧ hostLoad bytes s = .refused .imageTooLong) ∨
    (bytes.length ≤ s.config.memSize ∧ hostLoad bytes s = .next { s with mem := s.mem.storeAll 0 bytes }) := by
  unfold hostLoad
  split
  · exact .inl ⟨by assumption, rfl⟩
  · exact .inr ⟨by omega, rfl⟩

/-- Storing bytes from an address on changes Memory only, and keeps it canonical and within the capacity. -/
theorem State.placeBytes_keeps {s : State} (hw : Memory.wf s.mem = true)
    (hi : Memory.within s.config.memSize s.mem = true) (hsize : 1 ≤ s.config.memSize) (a : Word) (bs : List Byte) :
    ∃ m, s.placeBytes a bs = { s with mem := m } ∧ Memory.wf m = true ∧ Memory.within s.config.memSize m = true := by
  induction bs generalizing s a with
  | nil => exact ⟨s.mem, rfl, hw, hi⟩
  | cons b bs ih =>
    have k := State.memWrite_keeps_memory hw hi hsize a b
    obtain ⟨m, hm, h1, h2⟩ := ih (s := s.memWrite a b) k.1 k.2 hsize (a + 1)
    exact ⟨m, hm, h1, h2⟩

end Sys2Proof.Machine
end

