-- ==== Sys2Proof/Laws/PerInstr.lean ====
section
/-! SUPPORT. Facts about each instruction as syntax, one lemma per constructor of Instr. -/

namespace Sys2Proof.Laws

/-! ### The encoding has the length of the format (R50) -/

/-- The encoding of `i` has the length the table of R50 gives its variant. -/
def EncodedLength.Statement (i : Instr) : Prop := ∀ opc, (encode opc i).length = lengthOf i

theorem EncodedLength.nop : EncodedLength.Statement .nop := fun _ => rfl
theorem EncodedLength.halt : EncodedLength.Statement .halt := fun _ => rfl
theorem EncodedLength.movi (reg : Byte) (imm16 : Word) : EncodedLength.Statement (.movi reg imm16) := fun _ => rfl
theorem EncodedLength.mov (reg1 reg2 : Byte) : EncodedLength.Statement (.mov reg1 reg2) := fun _ => rfl
theorem EncodedLength.add (reg1 reg2 : Byte) : EncodedLength.Statement (.add reg1 reg2) := fun _ => rfl
theorem EncodedLength.sub (reg1 reg2 : Byte) : EncodedLength.Statement (.sub reg1 reg2) := fun _ => rfl
theorem EncodedLength.cmp (reg1 reg2 : Byte) : EncodedLength.Statement (.cmp reg1 reg2) := fun _ => rfl
theorem EncodedLength.jmp (addr16 : Word) : EncodedLength.Statement (.jmp addr16) := fun _ => rfl
theorem EncodedLength.jz (addr16 : Word) : EncodedLength.Statement (.jz addr16) := fun _ => rfl
theorem EncodedLength.jnz (addr16 : Word) : EncodedLength.Statement (.jnz addr16) := fun _ => rfl
theorem EncodedLength.out (port16 : Word) (reg : Byte) : EncodedLength.Statement (.out port16 reg) := fun _ => rfl
theorem EncodedLength.load (reg : Byte) (addr16 : Word) : EncodedLength.Statement (.load reg addr16) := fun _ => rfl
theorem EncodedLength.store (reg : Byte) (addr16 : Word) : EncodedLength.Statement (.store reg addr16) := fun _ => rfl

/-! ### The operand bytes give the operands back, whatever follows them (R51, R52) -/

/-- Reading the operands of `i` from its operand bytes gives `i`. -/
def OperandsRoundTrip.Statement (i : Instr) : Prop :=
  ∀ rest, decodeOperands (mnemonicOf i) (operandBytes i ++ rest) = i

theorem OperandsRoundTrip.nop : OperandsRoundTrip.Statement .nop := fun _ => rfl

theorem OperandsRoundTrip.halt : OperandsRoundTrip.Statement .halt := fun _ => rfl

theorem OperandsRoundTrip.movi (reg : Byte) (imm16 : Word) : OperandsRoundTrip.Statement (.movi reg imm16) := by
  intro rest
  simp [decodeOperands, operandBytes, mnemonicOf]

theorem OperandsRoundTrip.mov (reg1 reg2 : Byte) : OperandsRoundTrip.Statement (.mov reg1 reg2) := by
  intro rest
  simp [decodeOperands, operandBytes, mnemonicOf]

theorem OperandsRoundTrip.add (reg1 reg2 : Byte) : OperandsRoundTrip.Statement (.add reg1 reg2) := by
  intro rest
  simp [decodeOperands, operandBytes, mnemonicOf]

theorem OperandsRoundTrip.sub (reg1 reg2 : Byte) : OperandsRoundTrip.Statement (.sub reg1 reg2) := by
  intro rest
  simp [decodeOperands, operandBytes, mnemonicOf]

theorem OperandsRoundTrip.cmp (reg1 reg2 : Byte) : OperandsRoundTrip.Statement (.cmp reg1 reg2) := by
  intro rest
  simp [decodeOperands, operandBytes, mnemonicOf]

theorem OperandsRoundTrip.jmp (addr16 : Word) : OperandsRoundTrip.Statement (.jmp addr16) := by
  intro rest
  simp [decodeOperands, operandBytes, mnemonicOf]

theorem OperandsRoundTrip.jz (addr16 : Word) : OperandsRoundTrip.Statement (.jz addr16) := by
  intro rest
  simp [decodeOperands, operandBytes, mnemonicOf]

theorem OperandsRoundTrip.jnz (addr16 : Word) : OperandsRoundTrip.Statement (.jnz addr16) := by
  intro rest
  simp [decodeOperands, operandBytes, mnemonicOf]

theorem OperandsRoundTrip.out (port16 : Word) (reg : Byte) : OperandsRoundTrip.Statement (.out port16 reg) := by
  intro rest
  simp [decodeOperands, operandBytes, mnemonicOf]

theorem OperandsRoundTrip.load (reg : Byte) (addr16 : Word) : OperandsRoundTrip.Statement (.load reg addr16) := by
  intro rest
  simp [decodeOperands, operandBytes, mnemonicOf]

theorem OperandsRoundTrip.store (reg : Byte) (addr16 : Word) : OperandsRoundTrip.Statement (.store reg addr16) := by
  intro rest
  simp [decodeOperands, operandBytes, mnemonicOf]

end Sys2Proof.Laws
end

