-- ==== Sys2Proof/Laws/Step.lean ====
section
/-! SUPPORT. What a well-formed state provides, what a phase-4 body can answer, and all that a step can do. -/

namespace Sys2Proof.Machine

open Sys2Proof.Safety

/-! ### A well-formed state, read as facts -/

theorem config_facts {c : Config} (h : c.wellFormed = true) :
    c.pcIdx < c.nreg ∧ c.flIdx < c.nreg ∧ c.pcIdx ≠ c.flIdx ∧ 1 ≤ c.memSize ∧ c.opc.wellFormed = true := by
  simp only [Config.wellFormed, Config.nregOk, Config.pcIdxOk, Config.flIdxOk, Config.indicesDistinct, Config.memSizeOk,
    Bool.and_eq_true, decide_eq_true_eq] at h
  tauto

theorem wf_iff {s : State} : Wf s = true ↔ s.config.wellFormed = true ∧ s.regs.length = s.config.nreg ∧
    Memory.wf s.mem = true ∧ Memory.within s.config.memSize s.mem = true := by
  simp only [Wf, Bool.and_eq_true, decide_eq_true_eq]
  tauto

theorem wf_config {s : State} (h : Wf s = true) : s.config.wellFormed = true := (wf_iff.1 h).1
theorem wf_length {s : State} (h : Wf s = true) : s.regs.length = s.config.nreg := (wf_iff.1 h).2.1
theorem wf_memory {s : State} (h : Wf s = true) : Memory.wf s.mem = true := (wf_iff.1 h).2.2.1
theorem wf_opc {s : State} (h : Wf s = true) : s.config.opc.wellFormed = true := (config_facts (wf_config h)).2.2.2.2
theorem wf_distinct {s : State} (h : Wf s = true) : s.config.pcIdx ≠ s.config.flIdx := (config_facts (wf_config h)).2.2.1
theorem wf_memSize {s : State} (h : Wf s = true) : 1 ≤ s.config.memSize := (config_facts (wf_config h)).2.2.2.1

theorem wf_pcIdx {s : State} (h : Wf s = true) : s.config.pcIdx < s.regs.length :=
  wf_length h ▸ (config_facts (wf_config h)).1

theorem wf_flIdx {s : State} (h : Wf s = true) : s.config.flIdx < s.regs.length :=
  wf_length h ▸ (config_facts (wf_config h)).2.1

/-- A register operand that the guard lets through is an entry of the file. -/
theorem wf_operand {s : State} (h : Wf s = true) {r : Byte} (hr : s.inRange r = true) : r.toNat < s.regs.length := by
  rw [wf_length h]
  exact of_decide_eq_true hr

/-- A register write keeps a state well-formed. -/
theorem wf_writeReg {s : State} (h : Wf s = true) (i : Nat) (v : Word) : Wf (s.writeReg i v) = true := by
  rw [wf_iff] at h ⊢
  simpa using h

/-- A memory write keeps a state well-formed. -/
theorem wf_memWrite {s : State} (h : Wf s = true) (a : Word) (b : Byte) : Wf (s.memWrite a b) = true := by
  obtain ⟨h1, h2, h3, h4⟩ := wf_iff.1 h
  have k := State.memWrite_keeps_memory h3 h4 (wf_memSize h) a b
  exact wf_iff.2 ⟨h1, h2, k.1, k.2⟩

/-! ### Reading a byte after a write -/

theorem State.byteAt_memWrite {s : State} (h : Wf s = true) (a : Word) (b : Byte) (n : Nat) :
    (s.memWrite a b).byteAt n = if n = s.cellIndex a then b else s.byteAt n :=
  Memory.lookup_store (wf_memory h) _ b n

/-! ### All a step can do -/

/-- A step answers the state itself when halted, the instruction's body after the fetch, or the unknown-opcode halt. -/
theorem step_cases (s : State) :
    (s.halted = true ∧ step s = .next s) ∨
    (s.halted = false ∧ ∃ i s', s.fetchInstr = (.ok i, s') ∧ step s = exec i s') ∨
    (s.halted = false ∧ ∃ op s', s.fetchInstr = (.error op, s') ∧ step s = .next (s'.raiseUnknownOpcode op s.pc)) := by
  unfold step
  cases hh : s.halted with
  | true => exact .inl ⟨rfl, rfl⟩
  | false =>
    rcases hf : s.fetchInstr with ⟨_ | i, s'⟩
    · exact .inr (.inr ⟨rfl, _, _, rfl, rfl⟩)
    · exact .inr (.inl ⟨rfl, _, _, rfl, rfl⟩)

/-- The instruction a list of operand bytes gives is of the variant that was asked for. -/
@[simp] theorem mnemonicOf_decodeOperands (m : Mnemonic) (bs : List Byte) : mnemonicOf (decodeOperands m bs) = m := by
  cases m <;> rfl

end Sys2Proof.Machine
end

