-- ==== Sys2Proof/Tests/Slice0.lean ====
section
/-! SUPPORT. Tests, each by evaluation. Expected values are those of spec/95_test_vectors.md (the vector is named) or are written out
by hand from the encoding tables of spec/30_encoding.md. The witnesses show that the hypotheses of each statement can be met. -/

namespace Sys2Proof.Tests

open Sys2Proof Sys2Proof.Machine Sys2Proof.Safety

/-! ### Helpers -/

/-- The reset state with registers x[0] to x[7] and bytes stored from an address on. -/
def placed (regs : List Word) (a : Word) (bytes : List Byte) : State :=
  State.placeBytes { State.reset with regs := regs } a bytes

/-- A state from the general registers x[0], x[1], with `pc` and `fl`. -/
def small (x0 x1 pc fl : Word) (bytes : List Byte) : State := placed [x0, x1, 0, 0, 0, 0, pc, fl] pc bytes

/-- The next state, if there is one. -/
def next? : Host.Outcome State Fault Refusal → Option State
  | .next s => some s
  | .fault _ => none
  | .refused _ => none

/-- What one step gives, seen through a function of the state after it. -/
def seen {α : Type} (f : State → α) (s : State) : Option α := (next? (step s)).map f

/-- Registers x[0], x[1], pc and fl. -/
def view (s : State) : List Word := [s.readReg 0, s.readReg 1, s.pc, s.fl]

/-- An admissible choice of the parameters that is not the default: four registers, four bytes of Memory, opcodes reversed. -/
def tiny : Config := ⟨4, 2, 3, 4, ⟨12, 11, 10, 9, 8, 7, 6, 5, 4, 3, 2, 1, 0⟩⟩

/-! ### Well-formedness: an ill-formed term for each check -/

theorem test_wf_default : defaultConfig.wellFormed = true := by decide
theorem test_wf_tiny : tiny.wellFormed = true := by decide
theorem test_wf_nreg_too_small : (⟨3, 2, 3, 4, defaultOpcodes⟩ : Config).nregOk = false := by decide
theorem test_wf_nreg_too_large : (⟨257, 2, 3, 4, defaultOpcodes⟩ : Config).nregOk = false := by decide
theorem test_wf_pc_out_of_file : (⟨4, 4, 3, 4, defaultOpcodes⟩ : Config).pcIdxOk = false := by decide
theorem test_wf_pc_is_zero : (⟨4, 0, 3, 4, defaultOpcodes⟩ : Config).pcIdxOk = false := by decide
theorem test_wf_fl_out_of_file : (⟨4, 2, 4, 4, defaultOpcodes⟩ : Config).flIdxOk = false := by decide
theorem test_wf_fl_is_one : (⟨4, 2, 1, 4, defaultOpcodes⟩ : Config).flIdxOk = false := by decide
theorem test_wf_same_index : (⟨4, 3, 3, 4, defaultOpcodes⟩ : Config).indicesDistinct = false := by decide
theorem test_wf_no_memory : (⟨4, 2, 3, 0, defaultOpcodes⟩ : Config).memSizeOk = false := by decide
theorem test_wf_opcode_twice : ({ defaultOpcodes with halt := 0 } : OpcodeMap).wellFormed = false := by decide
theorem test_wf_short_file : Wf { State.reset with regs := [0, 0] } = false := by decide
theorem test_wf_zero_cell : Memory.wf [(3, 0)] = false := by decide
theorem test_wf_unsorted : Memory.wf [(3, 1), (2, 1)] = false := by decide
theorem test_wf_beyond_capacity : Memory.within 4 [(4, 1)] = false := by decide

/-! ### Decoding: a word of every constructor, its bytes written out from the tables of R51 and R54 -/

theorem test_decode_nop : decodeTableWord 8 0b00000000 = some .nop := by decide
theorem test_decode_halt : decodeTableWord 8 0b00000001 = some .halt := by decide
-- 02 03 34 12
theorem test_decode_movi : decodeTableWord 32 0b00010010_00110100_00000011_00000010 = some (.movi 3 0x1234) := by decide
-- 03 05 09
theorem test_decode_mov : decodeTableWord 24 0b00001001_00000101_00000011 = some (.mov 5 9) := by decide
-- 04 00 01
theorem test_decode_add : decodeTableWord 24 0b00000001_00000000_00000100 = some (.add 0 1) := by decide
-- 05 02 FF
theorem test_decode_sub : decodeTableWord 24 0b11111111_00000010_00000101 = some (.sub 2 255) := by decide
-- 06 01 02
theorem test_decode_cmp : decodeTableWord 24 0b00000010_00000001_00000110 = some (.cmp 1 2) := by decide
-- 07 34 12
theorem test_decode_jmp : decodeTableWord 24 0b00010010_00110100_00000111 = some (.jmp 0x1234) := by decide
-- 08 0B 00
theorem test_decode_jz : decodeTableWord 24 0b00000000_00001011_00001000 = some (.jz 0x000B) := by decide
-- 09 0C 80
theorem test_decode_jnz : decodeTableWord 24 0b10000000_00001100_00001001 = some (.jnz 0x800C) := by decide
-- 0A 00 03 06: the register index is the last byte
theorem test_decode_out : decodeTableWord 32 0b00000110_00000011_00000000_00001010 = some (.out 0x0300 6) := by decide
-- 0B 01 00 02
theorem test_decode_load : decodeTableWord 32 0b00000010_00000000_00000001_00001011 = some (.load 1 0x0200) := by decide
-- 0C 08 00 02
theorem test_decode_store : decodeTableWord 32 0b00000010_00000000_00001000_00001100 = some (.store 8 0x0200) := by decide
theorem test_decode_unknown : decodeTableWord 8 0x0D = none := by decide
theorem test_decode_short_row : decodeTableWord 8 0x02 = some (.movi 0 0) := by decide
theorem test_decode_truncated : (decode defaultOpcodes [0x02, 0x00, 0x05]).toOption = none := by decide
-- another opcode map: MOVI is 0x0A there
theorem test_decode_other_map : decode tiny.opc [0x0A, 0x00, 0x05, 0x00, 0x0C] = .ok (.movi 0 5, [0x0C]) := by decide
theorem test_encode_out : encode defaultOpcodes (.out 0x0300 6) = [0x0A, 0x00, 0x03, 0x06] := by decide
theorem test_encode_movi : encode defaultOpcodes (.movi 3 0x1234) = [0x02, 0x03, 0x34, 0x12] := by decide

/-! ### One step -/

-- V-FD-2: NOP at 0xFFFF
theorem test_nop_wraps : seen view (small 0 0 0xFFFF 0 [0x00]) = some [0, 0, 0, 0] := by decide
-- V-SYS-2
theorem test_halt : seen (fun s => (s.halted, s.pc)) (small 0 0 0x000B 0 [0x01]) = some (true, 0x000C) := by decide
-- V-FD-3: an instruction across the top of the address space
theorem test_movi_across_top :
    seen view (small 0 0 0xFFFE 0 [0x02, 0x00, 0xCD, 0xAB]) = some [0xABCD, 0, 0x0002, 0] := by decide
-- V-MOV-8
theorem test_movi_fl : seen view (small 0 0 0 0 [0x02, 0x07, 0x03, 0x00]) = some [0, 0, 4, 3] := by decide
-- V-MOV-3
theorem test_mov : seen view (small 0xFFFF 0x1234 0 0 [0x03, 0x00, 0x01]) = some [0x1234, 0x1234, 3, 0] := by decide
-- V-MOV-5: PC as source reads the next instruction's address
theorem test_mov_from_pc : seen view (small 0 0 0x0020 0 [0x03, 0x00, 0x06]) = some [0x0023, 0, 0x0023, 0] := by decide
-- V-ALU-2
theorem test_add_wraps : seen view (small 0xFFFF 1 0 0 [0x04, 0x00, 0x01]) = some [0, 1, 3, 1] := by decide
-- V-ALU-13: destination FL
theorem test_add_fl : seen view (small 0 3 0 0 [0x04, 0x07, 0x01]) = some [0, 3, 3, 2] := by decide
-- V-ALU-6
theorem test_sub_wraps : seen view (small 0 1 0 0 [0x05, 0x00, 0x01]) = some [0xFFFF, 1, 3, 0] := by decide
-- V-ALU-8: the source is the destination
theorem test_sub_self : seen view (small 0x1234 7 0 0 [0x05, 0x00, 0x00]) = some [0, 7, 3, 1] := by decide
-- V-ALU-10
theorem test_cmp_clears : seen view (small 1 2 0 1 [0x06, 0x00, 0x01]) = some [1, 2, 3, 0] := by decide
-- V-FD-7: guard-skipped, Z kept
theorem test_cmp_skipped : seen view (small 5 0 0 1 [0x06, 0x00, 0xFF]) = some [5, 0, 3, 1] := by decide
-- V-JMP-1
theorem test_jmp : seen view (small 0 0 0x0010 1 [0x07, 0x34, 0x12]) = some [0, 0, 0x1234, 1] := by decide
-- V-JMP-2
theorem test_jz_taken : seen view (small 0 0 0x0010 1 [0x08, 0x34, 0x12]) = some [0, 0, 0x1234, 1] := by decide
-- V-JMP-6: only bit 0 of FL is tested
theorem test_jz_bit_zero_only : seen view (small 0 0 0x0010 2 [0x08, 0x34, 0x12]) = some [0, 0, 0x0013, 2] := by decide
-- V-JMP-4
theorem test_jnz_taken : seen view (small 0 0 0x0010 0 [0x09, 0x34, 0x12]) = some [0, 0, 0x1234, 0] := by decide
-- V-JMP-5
theorem test_jnz_not_taken : seen view (small 0 0 0x0010 1 [0x09, 0x34, 0x12]) = some [0, 0, 0x0013, 1] := by decide
-- V-MEM-4
theorem test_out : seen (fun s => (s.byteAt 0x300, s.pc)) (small 0x1234 0 0 0 [0x0A, 0x00, 0x03, 0x00]) = some (0x34, 4) := by
  decide
-- V-MEM-10: PC as the register of OUT
theorem test_out_pc : seen (fun s => s.byteAt 0x300) (small 0 0 0x0010 0 [0x0A, 0x00, 0x03, 0x06]) = some 0x14 := by decide
-- V-MEM-2
theorem test_load_zero_extends :
    seen view ((small 0 0xABCD 0 0 [0x0B, 0x01, 0x00, 0x02]).memWrite 0x0200 0xFF) = some [0, 0x00FF, 4, 0] := by decide
-- V-MEM-8: the LOAD's own opcode
theorem test_load_own_opcode : seen view (small 0 0 0 0 [0x0B, 0x00, 0x00, 0x00]) = some [0x000B, 0, 4, 0] := by decide
-- V-MEM-7: over its own opcode, with the byte an unlisted cell reads as
theorem test_store_over_itself :
    seen (fun s => (s.mem, s.pc)) (small 0 0 0 0 [0x0C, 0x00, 0x00, 0x00]) = some ([], 4) := by decide
-- V-MEM-9: MEM_SIZE = 256
theorem test_store_wraps_capacity :
    seen (fun s => s.byteAt 0x10)
      { small 0xAA 0 0 0 [0x0C, 0x00, 0x10, 0x01] with config := { defaultConfig with memSize := 256 } } = some 0xAA := by decide
-- V-FD-12 and V-FD-13
theorem test_unknown_opcode :
    seen (fun s => (s.halted, s.pc, s.diagnostics)) (small 0 0 0 0 [0xFF, 0x08, 0x08]) =
      some (true, 1, [.unknownOpcode 0xFF 0]) := by decide
-- V-FD-1
theorem test_halted_step : seen id { small 7 0 0x10 0 [0x02, 0x00, 0x01, 0x00] with halted := true } =
    some { small 7 0 0x10 0 [0x02, 0x00, 0x01, 0x00] with halted := true } := by decide
-- V-FD-8: a guard-skipped STORE makes its fetch requests only
theorem test_requests_skipped_store : stepRequests (small 5 0 0 0 [0x0C, 0x08, 0x00, 0x02]) =
    [.read 0, .read 1, .read 2, .read 3] := by decide
theorem test_requests_load : stepRequests (small 0 0 0 0 [0x0B, 0x01, 0x00, 0x02]) =
    [.read 0, .read 1, .read 2, .read 3, .read 0x0200] := by decide
theorem test_returns : stepReturns (small 0 0 0 0 [0x00]) = true ∧ stepReturns (small 0 0 0 0 [0x01]) = false ∧
    stepReturns (small 0 0 0 0 [0x0D]) = false := by decide
-- V-RST-1, V-SYS-4
theorem test_reset : hostReset { small 5 6 7 1 [0x01] with halted := true } = { State.reset with mem := [(7, 1)] } := by decide
-- S9, for a Memory of four bytes
theorem test_load_too_long : next? (hostLoad [1, 2, 3, 4, 5] (freshState tiny)) = none := by decide
-- log 21: the record of an unknown opcode outlives a reset
theorem test_faulted_over_reset : Faulted (hostReset { small 0 0 0 0 [0x01] with diagnostics := [.unknownOpcode 0x0D 0] }) = true := by
  decide
theorem test_fetch_word : seen view (State.reset.withFetchWord 32 0x12340002) = some [0x1234, 0, 4, 0] := by decide

/-! ### Witnesses: states and operands that meet all hypotheses of a statement, one for each of its clauses at a boundary -/

theorem witness_DecodeOfEncodeGivesInstruction : defaultOpcodes.wellFormed = true ∧ tiny.opc.wellFormed = true := by decide
theorem witness_EncodeOfDecodeGivesBytes :
    decode defaultOpcodes [0x0A, 0xFF, 0xFF, 0xFF, 0x07] = .ok (.out 0xFFFF 0xFF, [0x07]) := by decide
theorem witness_UnassignedOpcodesAreUnknown :
    (0x0D : Byte) ∉ defaultOpcodes.values ∧ (0x0C : Byte) ∈ defaultOpcodes.values ∧ defaultOpcodes.wellFormed = true := by decide
theorem witness_WithFetchWordRunsTheTableInstruction :
    Wf State.reset = true ∧ State.reset.halted = false ∧ State.reset.config.opc = defaultOpcodes ∧
      State.reset.config.memSize = 65536 ∧ decodeTableWord 32 0xFFFF000C = some (.store 0 0xFFFF) := by decide

/-- MOVI R255, 0xFFFF at 0xFFFF. -/
def topState : State := small 1 2 0xFFFF 0 [0x02, 0xFF, 0xFF, 0xFF]

theorem witness_StepRunsDecodedInstruction : Wf topState = true ∧ topState.halted = false ∧
    decode topState.config.opc (topState.bytesFrom topState.pc 4) = .ok (.movi 0xFF 0xFFFF, []) := by decide
theorem witness_HaltedStepChangesNothing : ({ topState with halted := true } : State).halted = true := by decide

/-- An unknown opcode at 0xFFFF. -/
def unknownState : State := small 1 2 0xFFFF 1 [0x0D]

theorem witness_UnknownOpcodeHalts : Wf unknownState = true ∧ unknownState.halted = false ∧
    unknownState.memRead unknownState.pc ∉ unknownState.config.opc.values := by decide
/-- A step completes from a well-formed state that is not halted, and the bytes at `pc` decode to `i`. -/
abbrev Runs (s : State) (i : Instr) : Prop := Wf s = true ∧ s.halted = false ∧ (next? (step s)).isSome = true ∧
  (decode s.config.opc (s.bytesFrom s.pc 4)).toOption.map (·.1) = some i

/-- The same, and the bytes at `pc` are no instruction. -/
abbrev Halts (s : State) : Prop := Wf s = true ∧ s.halted = false ∧ (next? (step s)).isSome = true ∧
  (decode s.config.opc (s.bytesFrom s.pc 4)).toOption = none

theorem witness_PcAfterStepIsSelected_unknown : Halts unknownState := by decide
theorem witness_PcAfterStepIsSelected_skipped : Runs topState (.movi 0xFF 0xFFFF) := by decide
theorem witness_PcAfterStepIsSelected_halt : Runs (small 1 2 0xFFFF 1 [0x01]) .halt := by decide
theorem witness_PcAfterStepIsSelected_to_pc : Runs (small 0 0 0 0 [0x02, 0x06, 0x10, 0x00]) (.movi 6 0x10) ∧
    Runs (small 2 0 4 0 [0x04, 0x06, 0x00]) (.add 6 0) ∧ (6 : Byte).toNat = defaultConfig.pcIdx := by decide
theorem witness_PcAfterStepIsSelected_jump : Runs (small 0 0 0xFFFF 1 [0x08, 0x34, 0x12]) (.jz 0x1234) ∧
    Runs (small 0 0 0xFFFF 0xFFFE [0x08, 0x34, 0x12]) (.jz 0x1234) ∧
    Runs (small 0 0 0xFFFF 0 [0x09, 0x34, 0x12]) (.jnz 0x1234) ∧
    Runs (small 0 0 0xFFFF 1 [0x09, 0x34, 0x12]) (.jnz 0x1234) := by decide
-- V-MOV-7 and V-ALU-15: the value of `pc` in two of these rows
theorem test_mov_to_pc : seen State.pc (placed [0, 0, 0x0100, 0, 0, 0, 0, 0] 0 [0x03, 0x06, 0x02]) = some 0x0100 := by decide
theorem test_add_to_pc : seen view (small 2 0 4 0 [0x04, 0x06, 0x00]) = some [2, 0, 9, 0] := by decide

theorem witness_StepRequestsAccountForMemory_load :
    Runs (small 0 0 0xFFFF 0 [0x0B, 0x07, 0xFF, 0xFF]) (.load 7 0xFFFF) := by decide
theorem witness_StepRequestsAccountForMemory_skipped_load :
    Runs (small 0 0 0xFFFF 0 [0x0B, 0x08, 0xFF, 0xFF]) (.load 8 0xFFFF) := by decide
theorem witness_StepRequestsAccountForMemory_write :
    Runs (small 0 0 0x0010 0 [0x0A, 0x00, 0x03, 0x06]) (.out 0x0300 6) ∧
    Runs (small 0 0 0xFFFF 0 [0x0C, 0x07, 0x00, 0x00]) (.store 7 0) := by decide
theorem witness_StepRequestsAccountForMemory_unknown : Halts unknownState := by decide
theorem witness_StepRequestsAccountForMemory_halted : Wf { topState with halted := true } = true ∧
    (next? (step { topState with halted := true })).isSome = true ∧ ({ topState with halted := true } : State).halted = true := by
  decide

/-- MOVI R0, 0xABCD at 0xFFFE. -/
def acrossTop : State := small 0 0 0xFFFE 0 [0x02, 0x00, 0xCD, 0xAB]

theorem witness_FetchWrapsAtTheTopOfMemory : Wf acrossTop = true ∧ acrossTop.halted = false ∧ acrossTop.pc = 0xFFFE ∧
    acrossTop.memRead 0xFFFE = acrossTop.config.opc.movi ∧ (acrossTop.memRead 0xFFFF).toNat < acrossTop.config.nreg ∧
    (acrossTop.memRead 0xFFFF).toNat ≠ acrossTop.config.pcIdx := by decide
theorem witness_GuardSkipsWholeEffect :
    (8 : Byte) ∈ registerOperands (.add 0 8) ∧ State.reset.config.nreg ≤ (8 : Byte).toNat := by decide
theorem witness_OutOfRangeIndexIsSilent : Wf topState = true ∧ topState.halted = false ∧
    decode topState.config.opc (topState.bytesFrom topState.pc 4) = .ok (.movi 0xFF 0xFFFF, []) ∧
    (0xFF : Byte) ∈ registerOperands (.movi 0xFF 0xFFFF) ∧ topState.config.nreg ≤ (0xFF : Byte).toNat := by decide

/-- Three NOPs and a HALT across the top of Memory. -/
def nops : State := small 1 2 0xFFFE 1 [0x00, 0x00, 0x00, 0x01]

theorem witness_NopOnlyMovesPc : Wf nops = true ∧ nops.halted = false ∧ nops.memRead nops.pc = nops.config.opc.nop ∧
    (∀ k, k < 3 → nops.memRead (nops.pc + BitVec.ofNat 16 k) = nops.config.opc.nop) ∧
    nops.memRead (nops.pc + BitVec.ofNat 16 3) = nops.config.opc.halt := by
  refine ⟨by decide, by decide, by decide, fun k hk => ?_, by decide⟩
  interval_cases k <;> decide

/-- HALT at 0xFFFF, which is also a stream of no NOPs. -/
def haltTop : State := small 1 2 0xFFFF 1 [0x01]

theorem witness_HaltLatches : Wf haltTop = true ∧ haltTop.halted = false ∧ haltTop.memRead haltTop.pc = haltTop.config.opc.halt := by
  decide
theorem witness_HaltedLatchIsSetByHaltAndUnknownOnly : haltTop.halted = false ∧ (next? (step haltTop)).isSome = true ∧
    ({ haltTop with halted := true } : State).halted = true ∧ (next? (exec .halt haltTop)).isSome = true ∧
    (next? (hostLoad [1] { haltTop with halted := true })).isSome = true := by decide

/-- A well-formed state with every register in use: x[0] = 0xFFFF, x[1] = 1, pc = 0xFFFD, fl = 0xFFFF. -/
def busy : State := small 0xFFFF 1 0xFFFD 0xFFFF [0x03, 0x00, 0x06]

theorem witness_MoviWritesImmediate : Wf busy = true ∧ (0 : Byte).toNat < busy.config.nreg ∧ (6 : Byte).toNat < busy.config.nreg ∧
    (7 : Byte).toNat < busy.config.nreg := by decide
theorem witness_MovCopiesRegister : Wf busy = true ∧ (7 : Byte).toNat < busy.config.nreg ∧ (6 : Byte).toNat < busy.config.nreg := by
  decide
theorem witness_PcOperandReadsNextAddress : Wf busy = true ∧ busy.halted = false ∧ (0 : Byte).toNat < busy.config.nreg ∧
    (6 : Byte).toNat = busy.config.pcIdx ∧ busy.bytesFrom busy.pc 3 = [busy.config.opc.mov, 0, 6] := by decide
theorem witness_AddWritesSumAndZ : Wf busy = true ∧ (0 : Byte).toNat < busy.config.nreg ∧ (0 : Byte).toNat ≠ busy.config.flIdx ∧
    (7 : Byte).toNat < busy.config.nreg ∧ (7 : Byte).toNat = busy.config.flIdx := by decide
theorem witness_SubWritesDifferenceAndZ : Wf busy = true ∧ (0 : Byte).toNat < busy.config.nreg ∧ (0 : Byte).toNat ≠ busy.config.flIdx ∧
    (7 : Byte).toNat < busy.config.nreg ∧ (7 : Byte).toNat = busy.config.flIdx := by decide
theorem witness_CmpSetsZOnly : Wf busy = true ∧ (0 : Byte).toNat < busy.config.nreg ∧ (7 : Byte).toNat < busy.config.nreg := by decide
theorem witness_AddToFlagsRegister : Wf busy = true ∧ (7 : Byte).toNat = busy.config.flIdx ∧ (1 : Byte).toNat < busy.config.nreg ∧
    busy.fl + busy.readReg 1 = 0 ∧ busy.fl + busy.readReg 0 ≠ 0 := by decide
theorem witness_SameRegisterAsSourceAndDestination : Wf busy = true ∧ GeneralPurpose busy (0 : Byte).toNat = true ∧
    GeneralPurpose busy (5 : Byte).toNat = true := by decide
theorem witness_ZFollowsFlagAffectingOperations : Wf busy = true ∧
    (∀ r, destination (.add 0 1) = some r → r.toNat ≠ busy.config.flIdx) ∧ (next? (exec (.add 0 1) busy)).isSome = true ∧
    (∀ r, destination (.cmp 7 7) = some r → r.toNat ≠ busy.config.flIdx) ∧ (next? (exec (.cmp 7 7) busy)).isSome = true ∧
    (∀ r, destination (.sub 0 8) = some r → r.toNat ≠ busy.config.flIdx) ∧ (next? (exec (.sub 0 8) busy)).isSome = true ∧
    busy.config.nreg ≤ (8 : Byte).toNat := by
  refine ⟨by decide, fun r h => ?_, by decide, fun r h => ?_, by decide, fun r h => ?_, by decide, by decide⟩
  · cases h
    decide
  · cases h
  · cases h
    decide

/-- A jump to its own address at 0xFFFF, for each of the three opcodes. -/
def jumpTop (op : Byte) (fl : Word) : State := small 0 0 0xFFFF fl [op, 0xFF, 0xFF]

theorem witness_JmpSetsPc : Wf (jumpTop 7 0) = true ∧ (jumpTop 7 0).halted = false ∧
    (jumpTop 7 0).bytesFrom (jumpTop 7 0).pc 3 = [(jumpTop 7 0).config.opc.jmp, 0xFF, 0xFF] ∧
    (0xFF : Byte).toNat * 256 + (0xFF : Byte).toNat = (jumpTop 7 0).pc.toNat := by decide
/-- The hypotheses on the state, for an opcode byte of the default map. -/
abbrev JumpIsThere (op : Byte) (fl : Word) : Prop := Wf (jumpTop op fl) = true ∧ (jumpTop op fl).halted = false ∧
  (jumpTop op fl).bytesFrom (jumpTop op fl).pc 3 = [op, 0xFF, 0xFF]

theorem witness_JzJumpsOnZ : JumpIsThere 8 0xFFFE ∧ JumpIsThere 8 1 ∧ (jumpTop 8 1).config.opc.jz = 8 ∧
    mnemonicOf (.load 0 0) = .load ∧ destination (.load 0 0) = some 0 ∧ (0 : Byte).toNat ≠ State.reset.config.flIdx ∧
    (next? (exec (.load 0 0) State.reset)).isSome = true := by decide
theorem witness_JnzJumpsOnNotZ : JumpIsThere 9 0xFFFE ∧ JumpIsThere 9 1 ∧ (jumpTop 9 1).config.opc.jnz = 9 := by decide
theorem witness_StoreAndOutWriteLowByte : Wf busy = true ∧ (7 : Byte).toNat < busy.config.nreg ∧
    (Instr.out 0xFFFF 7 = .store 7 0xFFFF ∨ Instr.out 0xFFFF 7 = .out 0xFFFF 7) ∧
    (Instr.store 7 0 = .store 7 0 ∨ Instr.store 7 0 = .out 0 7) := by decide
theorem witness_LoadZeroExtendsByte : Wf busy = true ∧ (7 : Byte).toNat < busy.config.nreg := by decide
theorem witness_LoadReadsBackOutAndStore : Wf busy = true ∧ (0 : Byte).toNat < busy.config.nreg ∧ (7 : Byte).toNat < busy.config.nreg ∧
    (Instr.out 0xFFFF 0 = .store 0 0xFFFF ∨ Instr.out 0xFFFF 0 = .out 0xFFFF 0) ∧
    (next? (exec (.out 0xFFFF 0) busy)).isSome = true := by decide
theorem witness_StoreIsSeenByTheNextFetch : Wf busy = true ∧ (0 : Byte).toNat < busy.config.nreg ∧
    (Instr.store 0 0xFFFD = .store 0 0xFFFD ∨ Instr.store 0 0xFFFD = .out 0xFFFD 0) ∧
    (next? (exec (.store 0 0xFFFD) busy)).map (fun t => t.cellIndex t.pc) = some (busy.cellIndex 0xFFFD) := by decide
theorem witness_ReadGivesTheMostRecentWrite : Wf (freshState tiny) = true ∧
    (3 : Word).toNat % (freshState tiny).config.memSize = (7 : Word).toNat % (freshState tiny).config.memSize := by decide
theorem witness_OnlyTheDestinationIsWritten : GeneralPurpose busy 5 = true ∧
    (next? (exec (.movi 5 1) busy)).map (fun t => decide (t.readReg 5 ≠ busy.readReg 5)) = some true := by decide
theorem witness_OnlyStoreAndOutChangeMemory : Wf busy = true ∧
    (next? (exec (.store 1 0xFFFF) busy)).map (fun t => decide (t.byteAt 0xFFFF ≠ busy.byteAt 0xFFFF)) = some true := by decide
theorem witness_StepKeepsParametersAndReportsOnce : (next? (step unknownState)).isSome = true ∧ unknownState.halted = false ∧
    decodeOpcode unknownState.config.opc (unknownState.memRead unknownState.pc) = none := by decide
theorem witness_FaultRecordTellsHaltFromUnknown :
    (Faulted haltTop = false ∧ haltTop.halted = false ∧ (next? (step haltTop)).isSome = true) ∧
    (Faulted unknownState = false ∧ unknownState.halted = false ∧ (next? (step unknownState)).isSome = true) := by decide
theorem witness_UpperFlagBitsStay_runs : Wf busy = true ∧ (next? (step busy)).isSome = true ∧
    ∀ (i : Instr) (rest : List Byte), busy.halted = false → decode busy.config.opc (busy.bytesFrom busy.pc 4) = .ok (i, rest) →
      ∀ r, destination i = some r → r.toNat ≠ busy.config.flIdx := by
  refine ⟨by decide, by decide, fun i rest _ h r hr => ?_⟩
  have hd : (decode busy.config.opc (busy.bytesFrom busy.pc 4)).toOption.map (·.1) = some (.mov 0 6) := by decide
  rw [h] at hd
  cases hd
  cases hr
  decide
theorem witness_UpperFlagBitsStay_unknown : Wf unknownState = true ∧ (next? (step unknownState)).isSome = true ∧
    (unknownState.fl = 0 ∨ unknownState.fl = 1) ∧
    ∀ (i : Instr) (rest : List Byte), unknownState.halted = false →
      decode unknownState.config.opc (unknownState.bytesFrom unknownState.pc 4) = .ok (i, rest) →
      ∀ r, destination i = some r → r.toNat ≠ unknownState.config.flIdx := by
  refine ⟨by decide, by decide, by decide, fun i rest _ h => ?_⟩
  have hd : (decode unknownState.config.opc (unknownState.bytesFrom unknownState.pc 4)).toOption = none := by decide
  rw [h] at hd
  cases hd
theorem witness_UpperFlagBitsStay_halted : Wf { busy with halted := true } = true ∧
    (next? (step { busy with halted := true })).isSome = true ∧
    ∀ (i : Instr) (rest : List Byte), ({ busy with halted := true } : State).halted = false →
      decode busy.config.opc (busy.bytesFrom busy.pc 4) = .ok (i, rest) →
      ∀ r, destination i = some r → r.toNat ≠ busy.config.flIdx :=
  ⟨by decide, by decide, fun _ _ h => nomatch h⟩
theorem witness_UnnamedRegisterDoesNotInterfere : Wf busy = true ∧ busy.halted = false ∧ GeneralPurpose busy 5 = true ∧
    (decode busy.config.opc (busy.bytesFrom busy.pc 4)).toOption.map (·.1) = some (.mov 0 6) ∧
    (∀ r ∈ registerOperands (.mov 0 6), r.toNat ≠ 5) := by decide
theorem witness_StepKeepsWellFormed : Wf busy = true ∧ (next? (step busy)).isSome = true := by decide
theorem witness_ResetKeepsMemory : Wf busy = true := by decide
theorem witness_LoadCopiesImageOrRefuses : Wf (freshState tiny) = true ∧
    ([1, 2, 3, 4] : List Byte).length ≤ (freshState tiny).config.memSize ∧
    ¬ ([1, 2, 3, 4, 5] : List Byte).length ≤ (freshState tiny).config.memSize := by decide
theorem witness_LaunchGivesTheLaunchState : tiny.wellFormed = true ∧ ([1, 2, 3, 4] : List Byte).length ≤ tiny.memSize := by decide
theorem witness_SnapshotGivesEveryByte : 0 < (freshState tiny).config.memSize ∧ 3 < (freshState tiny).config.memSize := by decide

end Sys2Proof.Tests
end

section
/-! PROOF. The halted latch (spec/10_state.md R22): what sets it, what keeps it, and that no phase-4 body reads it. -/

namespace Sys2Proof.Machine

/-! ### The latch and the fetch -/

@[simp] theorem State.fetchBytes_halted (n : Nat) (s : State) : (State.fetchBytes n s).2.halted = s.halted := by
  induction n generalizing s with
  | zero => rfl
  | succ n ih => exact ih s.fetch8.2

/-- Phases 2 and 3 on a recognised opcode, in any state: `State.fetchInstr_of_known` without the bound on PC_IDX. -/
theorem State.fetchInstr_of_decodeOpcode {s : State} {m : Mnemonic}
    (hm : decodeOpcode s.config.opc (s.memRead s.pc) = some m) :
    s.fetchInstr = (.ok (decodeOperands m (State.fetchBytes (operandCount m) s.fetch8.2).1),
      (State.fetchBytes (operandCount m) s.fetch8.2).2) := by
  simp only [State.fetchInstr, State.fetch8_byte, hm]

@[simp] theorem State.fetchInstr_halted (s : State) : s.fetchInstr.2.halted = s.halted := by
  cases hm : decodeOpcode s.config.opc (s.memRead s.pc) with
  | none => rw [State.fetchInstr_of_unknown hm, State.setPc_halted]
  | some m => rw [State.fetchInstr_of_decodeOpcode hm, State.fetchBytes_halted, State.fetch8_state, State.setPc_halted]

/-- A fetched instruction is of the variant that the byte at `pc` selects (R74). -/
theorem State.decodeOpcode_of_fetchInstr_ok {s s' : State} {i : Instr} (h : s.fetchInstr = (.ok i, s')) :
    decodeOpcode s.config.opc (s.memRead s.pc) = some (mnemonicOf i) := by
  cases hm : decodeOpcode s.config.opc (s.memRead s.pc) with
  | none =>
    rw [State.fetchInstr_of_unknown hm] at h
    cases h
  | some m =>
    rw [State.fetchInstr_of_decodeOpcode hm] at h
    cases h
    rw [mnemonicOf_decodeOperands]

/-- A fetch gives back an opcode byte only where the map recognises none. -/
theorem State.decodeOpcode_of_fetchInstr_error {s s' : State} {op : Byte} (h : s.fetchInstr = (.error op, s')) :
    decodeOpcode s.config.opc (s.memRead s.pc) = none := by
  cases hm : decodeOpcode s.config.opc (s.memRead s.pc) with
  | none => rfl
  | some m =>
    rw [State.fetchInstr_of_decodeOpcode hm] at h
    cases h

theorem mnemonicOf_eq_halt_iff (i : Instr) : mnemonicOf i = .halt ↔ i = .halt := by
  cases i <;> simp [mnemonicOf]

/-! ### The latch and the phase-4 bodies -/

/-- A state update that neither reads nor writes the latch: it commutes with setting the latch to any value. -/
def IgnoresLatch (f : State → State) : Prop :=
  ∀ (s : State) (b : Bool), f { s with halted := b } = { f s with halted := b }

theorem IgnoresLatch.ite {c : State → Bool} {f g : State → State} (hc : ∀ s b, c { s with halted := b } = c s)
    (hf : IgnoresLatch f) (hg : IgnoresLatch g) : IgnoresLatch fun s => if c s then f s else g s := by
  intro s b
  simp only [hc s b]
  split
  · exact hf s b
  · exact hg s b

theorem IgnoresLatch.id : IgnoresLatch fun s => s := fun _ _ => rfl

theorem IgnoresLatch.setPc (a : Word) : IgnoresLatch fun s => s.setPc a := fun _ _ => rfl

/-- The guard looks at NREG alone, so a guarded body ignores the latch where the body does. -/
theorem IgnoresLatch.guarded {ops : List Byte} {body : State → State} (h : IgnoresLatch body) :
    IgnoresLatch fun s => s.guarded ops body :=
  .ite (c := fun s => ops.all s.inRange) (fun _ _ => rfl) h .id

/-- Every instruction but HALT runs as a state update that ignores the latch. -/
theorem exec_ignoresLatch {i : Instr} (hi : i ≠ .halt) :
    ∃ body, (∀ s, exec i s = .next (body s)) ∧ IgnoresLatch body := by
  cases i with
  | halt => exact absurd rfl hi
  | nop => exact ⟨_, fun _ => rfl, .id⟩
  | jmp addr16 => exact ⟨_, fun _ => rfl, .setPc addr16⟩
  | jz addr16 => exact ⟨_, fun _ => rfl, .ite (fun _ _ => rfl) (.setPc addr16) .id⟩
  | jnz addr16 => exact ⟨_, fun _ => rfl, .ite (fun _ _ => rfl) .id (.setPc addr16)⟩
  | movi | mov | add | sub | cmp | out | load | store => exact ⟨_, fun _ => rfl, .guarded fun _ _ => rfl⟩

theorem exec_halt (s : State) : exec .halt s = .next s.halt := rfl

/-- Setting the latch before a body changes nothing but the latch after it, which only HALT sets. -/
theorem exec_setHalted {i : Instr} {s t : State} (b : Bool) (h : exec i s = .next t) :
    exec i { s with halted := b } = .next { t with halted := if i = .halt then true else b } := by
  by_cases hi : i = .halt
  · subst hi
    rw [exec_halt] at h
    cases h
    rfl
  · obtain ⟨body, hbody, hlatch⟩ := exec_ignoresLatch hi
    rw [hbody] at h
    cases h
    rw [hbody, hlatch, if_neg hi]

/-- The latch after a body: set by HALT, as before otherwise. -/
theorem exec_halted {i : Instr} {s t : State} (h : exec i s = .next t) :
    t.halted = if i = .halt then true else s.halted := by
  have same : Host.Outcome.next t = .next { t with halted := if i = .halt then true else s.halted } :=
    h.symm.trans (exec_setHalted s.halted h)
  exact congrArg State.halted (Host.Outcome.next.inj same)

/-! ### The latch, a step and the host -/

/-- A step of an engine that is not halted sets the latch exactly on HALT and on an unknown opcode (R22). -/
theorem step_halted_iff {s t : State} (hs : s.halted = false) (h : step s = .next t) :
    t.halted = true ↔ decodeOpcode s.config.opc (s.memRead s.pc) = some .halt ∨
      decodeOpcode s.config.opc (s.memRead s.pc) = none := by
  obtain ⟨hh, -⟩ | ⟨-, i, s', hf, he⟩ | ⟨-, op, s', hf, he⟩ := step_cases s
  · rw [hs] at hh
    cases hh
  · have latch : s'.halted = false := by
      rw [← hs, ← State.fetchInstr_halted s, hf]
    rw [exec_halted (he ▸ h), latch, State.decodeOpcode_of_fetchInstr_ok hf]
    simp [mnemonicOf_eq_halt_iff]
  · rw [he] at h
    cases h
    simp [State.decodeOpcode_of_fetchInstr_error hf]

/-- A halted engine steps to itself (R71). -/
theorem step_of_halted {s : State} (hs : s.halted = true) : step s = .next s := if_pos hs

theorem hostLoad_halted {bytes : List Byte} {s t : State} (h : hostLoad bytes s = .next t) : t.halted = s.halted := by
  obtain ⟨-, he⟩ | ⟨-, he⟩ := hostLoad_cases bytes s
  · rw [he] at h
    cases h
  · rw [he] at h
    cases h
    rfl

/-- Settles O18, clause by clause: the step, the reset, the bodies, the writes and the host's load. -/
theorem haltedLatchIsSetByHaltAndUnknownOnly : Obligations.HaltedLatchIsSetByHaltAndUnknownOnly :=
  ⟨fun _ _ => step_halted_iff, fun _ => step_of_halted, hostReset_halted, fun _ _ _ b => exec_setHalted b,
    State.writeReg_halted, State.memWrite_halted, fun _ _ _ => hostLoad_halted⟩

end Sys2Proof.Machine
end

section
/-! PROOF. The outcome of a step and the boolean it returns (spec/40_fetch_decode.md R71, R77). -/

namespace Sys2Proof.Machine

/-! ### A halted engine (R71) -/

theorem stepReturns_of_halted {s : State} (hs : s.halted = true) : stepReturns s = false := if_pos hs

theorem stepRequests_of_halted {s : State} (hs : s.halted = true) : stepRequests s = [] := if_pos hs

/-- A state that a machine steps to itself is what every number of steps from it gives. -/
theorem run_of_step_self {M : Host.Core} {s : M.State} (h : M.step s = .next s) (n : Nat) : M.run n s = .next s := by
  induction n with
  | zero => rfl
  | succ n ih => simpa only [Host.Core.run, h] using ih

/-- Settles O7: the step is the identity there, so the run is, by induction on the number of steps. -/
theorem haltedStepChangesNothing : Obligations.HaltedStepChangesNothing :=
  fun _ hs => ⟨step_of_halted hs, stepReturns_of_halted hs, stepRequests_of_halted hs,
    run_of_step_self (M := core) (step_of_halted hs)⟩

/-! ### Every step completes (R77, R120) -/

/-- Every phase-4 body answers a next state: HALT's its own, the others the one their state update gives. -/
theorem exec_completes (i : Instr) (s : State) : ∃ t, exec i s = .next t := by
  by_cases hi : i = .halt
  · subst hi
    exact ⟨_, exec_halt s⟩
  · obtain ⟨body, hbody, -⟩ := exec_ignoresLatch hi
    exact ⟨_, hbody s⟩

theorem step_completes (s : State) : ∃ t, step s = .next t := by
  obtain ⟨-, he⟩ | ⟨-, i, s', -, he⟩ | ⟨-, op, s', -, he⟩ := step_cases s
  · exact ⟨_, he⟩
  · rw [he]
    exact exec_completes i s'
  · exact ⟨_, he⟩

/-! ### The returned boolean (R77) -/

theorem stepReturns_of_fetchInstr_ok {s s' : State} {i : Instr} (hs : s.halted = false)
    (hf : s.fetchInstr = (.ok i, s')) : stepReturns s = (mnemonicOf i != .halt) := by
  simp [stepReturns, hs, hf]

theorem stepReturns_of_fetchInstr_error {s s' : State} {op : Byte} (hs : s.halted = false)
    (hf : s.fetchInstr = (.error op, s')) : stepReturns s = false := by
  simp [stepReturns, hs, hf]

/-- The three cases in which a step returns false. -/
theorem stepReturns_eq_false_iff (s : State) :
    stepReturns s = false ↔ s.halted = true ∨ decodeOpcode s.config.opc (s.memRead s.pc) = some .halt ∨
      decodeOpcode s.config.opc (s.memRead s.pc) = none := by
  obtain ⟨hs, -⟩ | ⟨hs, i, s', hf, -⟩ | ⟨hs, op, s', hf, -⟩ := step_cases s
  · simp [stepReturns_of_halted hs, hs]
  · simp [stepReturns_of_fetchInstr_ok hs hf, State.decodeOpcode_of_fetchInstr_ok hf, hs]
  · simp [stepReturns_of_fetchInstr_error hs hf, State.decodeOpcode_of_fetchInstr_error hf]

/-- The latch after a step from any state: set before, or set by HALT or by an unknown opcode. -/
theorem halted_after_step_iff {s t : State} (h : step s = .next t) :
    t.halted = true ↔ s.halted = true ∨ decodeOpcode s.config.opc (s.memRead s.pc) = some .halt ∨
      decodeOpcode s.config.opc (s.memRead s.pc) = none := by
  cases hs : s.halted with
  | true =>
    rw [step_of_halted hs] at h
    cases h
    simp [hs]
  | false => simp [step_halted_iff hs h]

/-- A step returns true exactly when the engine is not halted after it: both sides have the same three cases. -/
theorem stepReturns_eq_not_halted {s t : State} (h : step s = .next t) : stepReturns s = !t.halted := by
  have same : stepReturns s = false ↔ t.halted = true :=
    (stepReturns_eq_false_iff s).trans (halted_after_step_iff h).symm
  cases ht : t.halted with
  | true => exact same.2 ht
  | false => simpa [ht] using same

/-- Settles O9, from the completion of every step and the three cases that the latch and the returned boolean share. -/
theorem stepIsTotalAndReturnsContinues : Obligations.StepIsTotalAndReturnsContinues := by
  intro s
  obtain ⟨t, ht⟩ := step_completes s
  have unique : ∀ o, step s = o → o = .next t := fun _ ho => ho.symm.trans ht
  exact ⟨⟨t, ht, unique, fun hop => (halted_after_step_iff ht).2 (.inr hop), stepReturns_eq_not_halted ht⟩,
    stepReturns_eq_false_iff s⟩

end Sys2Proof.Machine
end

section
/-! PROOF. A step on bytes that decode to an instruction (spec/40_fetch_decode.md R70, R75), and the silence of the register-index
guard (R76). -/

namespace Sys2Proof

/-- The operands of a variant are read from its own operand bytes alone (R51). -/
theorem decodeOperands_take (m : Mnemonic) (bs : List Byte) :
    decodeOperands m (bs.take (operandCount m)) = decodeOperands m bs := by
  cases m <;> simp [decodeOperands, operandCount, formatOf]

/-- What a byte stream that decodes looks like: its first byte selects the variant, and the bytes after it hold the operands. -/
theorem decode_cons_ok {opc : OpcodeMap} {op : Byte} {bs rest : List Byte} {i : Instr}
    (h : decode opc (op :: bs) = .ok (i, rest)) :
    ∃ m, decodeOpcode opc op = some m ∧ operandCount m ≤ bs.length ∧ decodeOperands m bs = i := by
  simp only [decode] at h
  split at h
  · cases h
  · split_ifs at h with hlen
    cases h
    exact ⟨_, by assumption, Nat.le_of_not_lt hlen, rfl⟩

end Sys2Proof

namespace Sys2Proof.Machine

open Sys2Proof.Safety

/-! ### The bytes at `pc` and the step -/

theorem State.bytesFrom_take {s : State} {a : Word} {n k : Nat} (h : n ≤ k) :
    (s.bytesFrom a k).take n = s.bytesFrom a n := by
  simp [State.bytesFrom, ← List.map_take, List.take_range, h]

/-- Phases 2 and 3 fetch the instruction that the four bytes at `pc` decode to, and move `pc` past it (R70, R75). -/
theorem State.fetchInstr_of_decode {s : State} {i : Instr} {rest : List Byte} (hpc : s.config.pcIdx < s.regs.length)
    (h : decode s.config.opc (s.bytesFrom s.pc 4) = .ok (i, rest)) :
    s.fetchInstr = (.ok i, s.setPc (s.pc + BitVec.ofNat 16 (lengthOf i))) := by
  rw [State.bytesFrom_succ] at h
  obtain ⟨m, hm, hlen, rfl⟩ := decode_cons_ok h
  rw [State.bytesFrom_length] at hlen
  rw [State.fetchInstr_of_known hpc hm, ← State.bytesFrom_take hlen, decodeOperands_take, lengthOf,
    mnemonicOf_decodeOperands]

/-- A step on bytes that decode runs the body of the instruction, on the state in which `pc` has moved past it. -/
theorem step_of_decode {s : State} {i : Instr} {rest : List Byte} (hw : Wf s = true) (hs : s.halted = false)
    (h : decode s.config.opc (s.bytesFrom s.pc 4) = .ok (i, rest)) :
    step s = exec i (s.setPc (s.pc + BitVec.ofNat 16 (lengthOf i))) := by
  simp [step, hs, State.fetchInstr_of_decode (wf_pcIdx hw) h]

/-! ### The guard -/

theorem State.inRange_eq_false_iff {s : State} {r : Byte} : s.inRange r = false ↔ s.config.nreg ≤ r.toNat := by
  simp [State.inRange]

/-- Every body that takes a register operand is guarded by all of them. -/
theorem exec_of_not_inRange {i : Instr} {r : Byte} {s : State} (hr : r ∈ registerOperands i) (h : s.inRange r = false) :
    exec i s = .next s := by
  cases i with
  | nop | halt | jmp | jz | jnz => cases hr
  | movi | mov | add | sub | cmp | out | load | store =>
    exact congrArg Host.Outcome.next (State.guarded_of_not_inRange hr h)

/-- Settles O15: the body leaves the state in which `pc` has moved, and the latch, still clear, says that the step returns true. -/
theorem outOfRangeIndexIsSilent : Obligations.OutOfRangeIndexIsSilent := by
  intro s i rest r hw hs hd hr hout
  have hstep : step s = .next (s.setPc (s.pc + BitVec.ofNat 16 (lengthOf i))) :=
    (step_of_decode hw hs hd).trans (exec_of_not_inRange hr (State.inRange_eq_false_iff.2 hout))
  refine ⟨_, hstep, State.pc_setPc (wf_pcIdx hw), fun j hj => ?_, fun _ => rfl, ⟨rfl, rfl, rfl⟩, ?_⟩
  · exact State.readReg_writeReg_ne fun e => hj (List.mem_singleton.2 e.symm)
  · rw [stepReturns_eq_not_halted hstep, State.setPc_halted, hs, Bool.not_false]

end Sys2Proof.Machine
end

section
/-! PROOF. The jumps (spec/44_jump.md R110 to R112): JMP, JZ and JNZ set `pc` to one value and change nothing else, and what keeps the
Zero flag they test. -/

namespace Sys2Proof.Machine

open Sys2Proof.Safety

/-! ### A step on the bytes of one variant -/

/-- A step on the opcode byte of a variant and its operand bytes runs the instruction they give, with `pc` past them (R70, R75). -/
theorem step_of_variantBytes {s : State} {m : Mnemonic} {operands : List Byte} (hw : Wf s = true) (hs : s.halted = false)
    (h : s.bytesFrom s.pc (operandCount m + 1) = opcodeOf s.config.opc m :: operands) :
    step s = exec (decodeOperands m operands) (s.setPc (s.pc + BitVec.ofNat 16 (1 + operandCount m))) := by
  rw [State.bytesFrom_succ] at h
  obtain ⟨hop, hoperands⟩ := List.cons.inj h
  have known : decodeOpcode s.config.opc (s.memRead s.pc) = some m := hop ▸ decodeOpcode_opcodeOf (wf_opc hw) m
  rw [← hoperands]
  simp [step, hs, State.fetchInstr_of_known (wf_pcIdx hw) known]

/-- A step on the three bytes of a variant with two operand bytes, as each jump has. -/
theorem step_of_threeBytes {s : State} {m : Mnemonic} {b1 b2 : Byte} (hm : operandCount m = 2) (hw : Wf s = true)
    (hs : s.halted = false) (h : s.bytesFrom s.pc 3 = [opcodeOf s.config.opc m, b1, b2]) :
    step s = exec (decodeOperands m [b1, b2]) (s.setPc (s.pc + 3)) := by
  have variant := step_of_variantBytes (m := m) (operands := [b1, b2]) hw hs (by rw [hm, h])
  rwa [hm] at variant

/-! ### Setting `pc` -/

/-- PC and FL are different registers, so setting `pc` keeps the flags. -/
theorem State.fl_setPc {s : State} (hw : Wf s = true) (v : Word) : (s.setPc v).fl = s.fl :=
  State.readReg_writeReg_ne (wf_distinct hw)

theorem State.setPc_frame (s : State) (v : Word) :
    RegistersKeptExcept [s.config.pcIdx] s (s.setPc v) ∧ MemoryKept s (s.setPc v) ∧ ControlKept s (s.setPc v) :=
  ⟨fun _ hj => State.readReg_writeReg_ne fun e => hj (List.mem_singleton.2 e.symm), fun _ => rfl, rfl, rfl, rfl⟩

/-- A step that only sets `pc` leaves the latch clear, so it returns true. -/
theorem stepReturns_of_step_setPc {s : State} {v : Word} (hs : s.halted = false) (h : step s = .next (s.setPc v)) :
    stepReturns s = true := by
  rw [stepReturns_eq_not_halted h, State.setPc_halted, hs, Bool.not_false]

/-- All that a step which sets `pc` to the number `n` does. -/
theorem step_setPc_effect {s : State} {v : Word} {n : Nat} (hw : Wf s = true) (hs : s.halted = false)
    (h : step s = .next (s.setPc v)) (hv : v.toNat = n) :
    ∃ t, step s = .next t ∧ t.pc.toNat = n ∧ RegistersKeptExcept [s.config.pcIdx] s t ∧ MemoryKept s t ∧
      ControlKept s t ∧ stepReturns s = true := by
  obtain ⟨hregs, hmem, hctl⟩ := s.setPc_frame v
  exact ⟨_, h, by rw [State.pc_setPc (wf_pcIdx hw), hv], hregs, hmem, hctl, stepReturns_of_step_setPc hs h⟩

/-! ### The three bodies: the value each gives `pc` -/

theorem exec_jmp (a : Word) (s : State) : exec (.jmp a) s = .next (s.setPc a) := rfl

/-- A JZ that is not taken leaves the state, which is to set `pc` to the value it has. -/
theorem exec_jz (a : Word) (s : State) :
    exec (.jz a) s = .next (s.setPc (if s.fl.getLsbD 0 = true then a else s.pc)) := by
  simp only [apply_ite s.setPc, State.setPc_pc_self]
  rfl

/-- A JNZ that is not taken leaves the state, which is to set `pc` to the value it has. -/
theorem exec_jnz (a : Word) (s : State) :
    exec (.jnz a) s = .next (s.setPc (if s.fl.getLsbD 0 = true then s.pc else a)) := by
  simp only [apply_ite s.setPc, State.setPc_pc_self]
  rfl

/-! ### The three steps: the fetch moves `pc` past the three bytes, and the body sets it again -/

section
variable {s : State} {lo hi : Byte}

theorem step_jmp (hw : Wf s = true) (hs : s.halted = false) (h : s.bytesFrom s.pc 3 = [s.config.opc.jmp, lo, hi]) :
    step s = .next (s.setPc (wordOfBytes lo hi)) :=
  calc step s
    _ = exec (.jmp (wordOfBytes lo hi)) (s.setPc (s.pc + 3)) := step_of_threeBytes (m := .jmp) rfl hw hs h
    _ = .next (s.setPc (wordOfBytes lo hi)) := by rw [exec_jmp, State.setPc_setPc]

theorem step_jz (hw : Wf s = true) (hs : s.halted = false) (h : s.bytesFrom s.pc 3 = [s.config.opc.jz, lo, hi]) :
    step s = .next (s.setPc (if s.fl.getLsbD 0 = true then wordOfBytes lo hi else s.pc + 3)) :=
  calc step s
    _ = exec (.jz (wordOfBytes lo hi)) (s.setPc (s.pc + 3)) := step_of_threeBytes (m := .jz) rfl hw hs h
    _ = .next (s.setPc (if s.fl.getLsbD 0 = true then wordOfBytes lo hi else s.pc + 3)) := by
      rw [exec_jz, State.setPc_setPc, State.fl_setPc hw, State.pc_setPc (wf_pcIdx hw)]

theorem step_jnz (hw : Wf s = true) (hs : s.halted = false) (h : s.bytesFrom s.pc 3 = [s.config.opc.jnz, lo, hi]) :
    step s = .next (s.setPc (if s.fl.getLsbD 0 = true then s.pc + 3 else wordOfBytes lo hi)) :=
  calc step s
    _ = exec (.jnz (wordOfBytes lo hi)) (s.setPc (s.pc + 3)) := step_of_threeBytes (m := .jnz) rfl hw hs h
    _ = .next (s.setPc (if s.fl.getLsbD 0 = true then s.pc + 3 else wordOfBytes lo hi)) := by
      rw [exec_jnz, State.setPc_setPc, State.fl_setPc hw, State.pc_setPc (wf_pcIdx hw)]

end

/-! ### What keeps Z: the reset clears it, and the moves and LOAD write their destination alone -/

theorem hostReset_readReg (s : State) (i : Nat) : (hostReset s).readReg i = 0 := by
  by_cases h : i < s.config.nreg <;> simp [State.readReg, h]

theorem hostReset_zero_clear (s : State) : (hostReset s).fl.getLsbD 0 = false := by
  rw [State.fl, hostReset_readReg]
  rfl

/-- MOVI, MOV and LOAD are guarded writes of one value to their destination. -/
theorem exec_eq_guarded_write {i : Instr} {reg : Byte}
    (hi : mnemonicOf i = .movi ∨ mnemonicOf i = .mov ∨ mnemonicOf i = .load) (hd : destination i = some reg) :
    ∃ value : State → Word, ∀ s,
      exec i s = .next (s.guarded (registerOperands i) fun s => s.writeOperand reg (value s)) := by
  cases i with
  | movi | mov | load =>
    cases hd
    exact ⟨_, fun _ => rfl⟩
  | nop | halt | add | sub | cmp | jmp | jz | jnz | out | store => simp [mnemonicOf] at hi

/-- MOVI, MOV and LOAD keep FL unless it is their destination, whether the guard lets the write through or not. -/
theorem exec_fl_of_move_or_load {i : Instr} {reg : Byte} {s t : State}
    (hi : mnemonicOf i = .movi ∨ mnemonicOf i = .mov ∨ mnemonicOf i = .load) (hd : destination i = some reg)
    (hreg : reg.toNat ≠ s.config.flIdx) (h : exec i s = .next t) : t.fl = s.fl := by
  obtain ⟨value, hexec⟩ := exec_eq_guarded_write hi hd
  rw [hexec] at h
  cases h
  obtain written | skipped := s.guarded_cases (registerOperands i) fun s => s.writeOperand reg (value s)
  · rw [written]
    exact State.readReg_writeReg_ne hreg
  · rw [skipped]

/-! ### The obligations -/

/-- Settles O29: both the body and the step are one write of `pc`, which a jump to its own address makes with the value there. -/
theorem jmpSetsPc : Obligations.JmpSetsPc := by
  refine ⟨fun s a hw => ⟨_, exec_jmp a s, State.pc_setPc (wf_pcIdx hw), s.setPc_frame a⟩, fun s lo hi hw hs h => ?_⟩
  have hstep := step_jmp hw hs h
  obtain ⟨t, ht, hpc, hregs, hmem, hctl, hret⟩ := step_setPc_effect hw hs hstep (wordOfBytes_toNat lo hi)
  refine ⟨t, ht, hpc, hregs, hmem, hctl, hret, fun hself => ?_⟩
  have same : wordOfBytes lo hi = s.pc := BitVec.eq_of_toNat_eq ((wordOfBytes_toNat lo hi).trans hself)
  rw [same, State.setPc_pc_self, ht] at hstep
  exact Host.Outcome.next.inj hstep

/-- Settles O30: both the body and the step are one write of `pc`, of a value that Z selects. -/
theorem jzJumpsOnZ : Obligations.JzJumpsOnZ := by
  refine ⟨fun s a hw => ⟨_, exec_jz a s, State.pc_setPc (wf_pcIdx hw), s.setPc_frame _⟩, fun s lo hi hw hs h => ?_,
    hostReset_zero_clear, fun _ _ _ _ hi hd hreg h => by rw [exec_fl_of_move_or_load hi hd hreg h]⟩
  refine step_setPc_effect hw hs (step_jz hw hs h) ?_
  rw [apply_ite BitVec.toNat, wordOfBytes_toNat, BitVec.toNat_add]
  rfl

/-- Settles O31: as for JZ, with the two values the other way round. -/
theorem jnzJumpsOnNotZ : Obligations.JnzJumpsOnNotZ := by
  refine ⟨fun s a hw => ⟨_, exec_jnz a s, State.pc_setPc (wf_pcIdx hw), s.setPc_frame _⟩, fun s lo hi hw hs h => ?_,
    hostReset_zero_clear⟩
  refine step_setPc_effect hw hs (step_jnz hw hs h) ?_
  rw [apply_ite BitVec.toNat, wordOfBytes_toNat, BitVec.toNat_add]
  rfl

end Sys2Proof.Machine
end

section
/-! PROOF. What the host's reset leaves in the register file and the latch (spec/70_reset_and_hazards.md R140). -/

namespace Sys2Proof.Machine

/-- The reset fills the register file again, also from a state whose file has another length. -/
theorem hostReset_regs_length (s : State) : (hostReset s).regs.length = s.config.nreg := by
  rw [hostReset_regs, List.length_replicate]

/-- Settles O45: every register reads 0 after reset, so `pc` and `fl`, which name two of them, do too, and with `fl` its bit Z. -/
theorem resetZeroesRegistersAndLatch : Obligations.ResetZeroesRegistersAndLatch :=
  fun s => ⟨hostReset_readReg s, hostReset_readReg s _, hostReset_readReg s _, hostReset_zero_clear s, hostReset_halted s,
    hostReset_regs_length s⟩

end Sys2Proof.Machine
end

section
/-! PROOF. Decode and encode agree (spec/30_encoding.md sections 1 to 4): the two round trips, and which bytes are no opcode. -/

namespace Sys2Proof

/-! ### The per-instruction facts, said for every instruction -/

theorem operandBytes_length (i : Instr) : (operandBytes i).length = operandCount (mnemonicOf i) := by
  cases i <;> rfl

/-- Reading the operands of `i` from its operand bytes gives `i`, whatever follows them (R51, R52). -/
theorem decodeOperands_operandBytes : ∀ i, Laws.OperandsRoundTrip.Statement i
  | .nop => Laws.OperandsRoundTrip.nop
  | .halt => Laws.OperandsRoundTrip.halt
  | .movi reg imm16 => Laws.OperandsRoundTrip.movi reg imm16
  | .mov reg1 reg2 => Laws.OperandsRoundTrip.mov reg1 reg2
  | .add reg1 reg2 => Laws.OperandsRoundTrip.add reg1 reg2
  | .sub reg1 reg2 => Laws.OperandsRoundTrip.sub reg1 reg2
  | .cmp reg1 reg2 => Laws.OperandsRoundTrip.cmp reg1 reg2
  | .jmp addr16 => Laws.OperandsRoundTrip.jmp addr16
  | .jz addr16 => Laws.OperandsRoundTrip.jz addr16
  | .jnz addr16 => Laws.OperandsRoundTrip.jnz addr16
  | .out port16 reg => Laws.OperandsRoundTrip.out port16 reg
  | .load reg addr16 => Laws.OperandsRoundTrip.load reg addr16
  | .store reg addr16 => Laws.OperandsRoundTrip.store reg addr16

/-- The operand bytes of what a decoding gave are the bytes it looked at, so none of their bits is lost (R51). -/
theorem operandBytes_decodeOperands {m : Mnemonic} {bs : List Byte} (h : operandCount m ≤ bs.length) :
    operandBytes (decodeOperands m bs) = bs.take (operandCount m) := by
  cases m with
  | nop | halt => rfl
  | mov | add | sub | cmp | jmp | jz | jnz =>
    match bs, h with
    | a :: b :: rest, _ => simp [decodeOperands, operandBytes, operandCount, formatOf]
  | movi | load | store | out =>
    match bs, h with
    | a :: b :: c :: rest, _ => simp [decodeOperands, operandBytes, operandCount, formatOf]

/-! ### All that `decode` can give -/

/-- `decode` gives an instruction exactly when the first byte selects a variant whose operand bytes are all there. -/
theorem decode_eq_ok_iff {opc : OpcodeMap} {op : Byte} {bs rest : List Byte} {i : Instr} :
    decode opc (op :: bs) = .ok (i, rest) ↔ ∃ m, decodeOpcode opc op = some m ∧ operandCount m ≤ bs.length ∧
      decodeOperands m bs = i ∧ bs.drop (operandCount m) = rest := by
  cases hm : decodeOpcode opc op with
  | none => simp [decode, hm]
  | some m =>
    by_cases hlen : bs.length < operandCount m
    · simp [decode, hm, hlen]
    · simp [decode, hm, hlen, Nat.le_of_not_lt hlen]

theorem decode_eq_unknownOpcode_iff {opc : OpcodeMap} {op : Byte} {bs : List Byte} :
    decode opc (op :: bs) = .error (.unknownOpcode op) ↔ decodeOpcode opc op = none := by
  cases hm : decodeOpcode opc op with
  | none => simp [decode, hm]
  | some m => by_cases hlen : bs.length < operandCount m <;> simp [decode, hm, hlen]

/-- Settles O1: the opcode byte selects the variant of `i` under an injective map, and its operand bytes give its operands back. -/
theorem decodeOfEncodeGivesInstruction : Obligations.DecodeOfEncodeGivesInstruction := by
  intro opc i rest hopc
  have there : operandCount (mnemonicOf i) ≤ (operandBytes i ++ rest).length := by
    rw [List.length_append, operandBytes_length]
    exact Nat.le_add_right _ _
  exact decode_eq_ok_iff.2 ⟨_, decodeOpcode_opcodeOf hopc (mnemonicOf i), there, decodeOperands_operandBytes i rest,
    List.drop_left' (operandBytes_length i)⟩

/-- Settles O2: the first byte is the opcode of the variant it selected, and the bytes after it split into the operand bytes and the
rest. -/
theorem encodeOfDecodeGivesBytes : Obligations.EncodeOfDecodeGivesBytes := by
  intro opc bytes i rest h
  cases bytes with
  | nil => cases h
  | cons op bs =>
    obtain ⟨m, hop, hlen, rfl, rfl⟩ := decode_eq_ok_iff.1 h
    rw [encode, Machine.mnemonicOf_decodeOperands, opcodeOf_of_decodeOpcode hop, operandBytes_decodeOperands hlen, List.cons_append,
      List.take_append_drop]

/-! ### Unassigned opcode bytes (R56) -/

theorem decodeOpcode_eq_none_iff {opc : OpcodeMap} {op : Byte} : decodeOpcode opc op = none ↔ op ∉ opc.values := by
  simp [decodeOpcode, opcodeMap_values_eq]

/-- The values the map assigns, as numbers. -/
def opcodeNumbers (opc : OpcodeMap) : Finset Nat := (opc.values.map BitVec.toNat).toFinset

theorem mem_opcodeNumbers {opc : OpcodeMap} {n : Nat} (h : n < 256) :
    n ∈ opcodeNumbers opc ↔ BitVec.ofNat 8 n ∈ opc.values := by
  have number : ∀ op : Byte, op.toNat = n ↔ op = BitVec.ofNat 8 n := fun op => by
    rw [BitVec.toNat_eq, BitVec.toNat_ofNat, Nat.mod_eq_of_lt h]
  simp [opcodeNumbers, number]

theorem opcodeNumbers_subset (opc : OpcodeMap) : opcodeNumbers opc ⊆ Finset.range 256 := by
  intro n hn
  obtain ⟨op, -, rfl⟩ := List.mem_map.1 (List.mem_toFinset.1 hn)
  exact Finset.mem_range.2 op.isLt

/-- An injective map assigns one number to each of the 13 variants. -/
theorem opcodeNumbers_card {opc : OpcodeMap} (h : opc.wellFormed = true) : (opcodeNumbers opc).card = 13 := by
  have nodup : (opc.values.map BitVec.toNat).Nodup :=
    List.Nodup.map (fun _ _ => BitVec.eq_of_toNat_eq) (of_decide_eq_true h)
  rw [opcodeNumbers, List.toFinset_card_of_nodup nodup]
  rfl

/-- The byte values that are no opcode are those left of 256 when the map's own are taken away. -/
theorem unknownNumbers_toFinset (opc : OpcodeMap) :
    ((List.range 256).filter fun n => (decodeOpcode opc (BitVec.ofNat 8 n)).isNone).toFinset =
      Finset.range 256 \ opcodeNumbers opc := by
  ext n
  by_cases h : n < 256
  · simp [h, decodeOpcode_eq_none_iff, mem_opcodeNumbers h]
  · simp [h]

/-- Settles O3: an unknown byte is one outside the map's values, and 256 - 13 = 243 of the byte values are. -/
theorem unassignedOpcodesAreUnknown : Obligations.UnassignedOpcodesAreUnknown := by
  refine ⟨fun opc op rest => decode_eq_unknownOpcode_iff.trans decodeOpcode_eq_none_iff, fun opc h => ?_⟩
  rw [← List.toFinset_card_of_nodup (List.nodup_range.filter _), unknownNumbers_toFinset,
    Finset.card_sdiff_of_subset (opcodeNumbers_subset opc), opcodeNumbers_card h, Finset.card_range]

/-- Settles O4, by reading each of the eight words. -/
theorem tableWordsDecodeAsWritten : Obligations.TableWordsDecodeAsWritten := by
  unfold Obligations.TableWordsDecodeAsWritten
  decide

end Sys2Proof
end

section
/-! PROOF. The phase-4 bodies said once (spec/40_fetch_decode.md R70, R76): each is the guard over the instruction's register operands
around one effect. -/

namespace Sys2Proof.Machine

open Sys2Proof.Safety

/-! ### The effect of an instruction -/

/-- What an instruction does to the state once the guard has let it through. A conditional jump that is not taken sets `pc` to the value
it has. -/
def effect : Instr → State → State
  | .nop, s => s
  | .halt, s => s.halt
  | .movi reg imm16, s => s.writeReg reg.toNat imm16
  | .mov reg1 reg2, s => s.writeReg reg1.toNat (s.readReg reg2.toNat)
  | .add reg1 reg2, s => s.writeResult reg1 (addWrap (s.readReg reg1.toNat) (s.readReg reg2.toNat))
  | .sub reg1 reg2, s => s.writeResult reg1 (subWrap (s.readReg reg1.toNat) (s.readReg reg2.toNat))
  | .cmp reg1 reg2, s => s.setZ (subWrap (s.readReg reg1.toNat) (s.readReg reg2.toNat))
  | .jmp addr16, s => s.setPc addr16
  | .jz addr16, s => s.setPc (if s.fl.getLsbD 0 = true then addr16 else s.pc)
  | .jnz addr16, s => s.setPc (if s.fl.getLsbD 0 = true then s.pc else addr16)
  | .out port16 reg, s => s.memWrite port16 (lowByte (s.readReg reg.toNat))
  | .load reg addr16, s => s.writeReg reg.toNat (zeroExtend (s.memRead addr16))
  | .store reg addr16, s => s.memWrite addr16 (lowByte (s.readReg reg.toNat))

/-- Every phase-4 body is the guard over its register operands around its effect; with no register operand the guard passes. -/
theorem exec_eq_guarded (i : Instr) (s : State) : exec i s = .next (s.guarded (registerOperands i) (effect i)) := by
  cases i with
  | jz addr16 => exact exec_jz addr16 s
  | jnz addr16 => exact exec_jnz addr16 s
  | nop | halt | movi | mov | add | sub | cmp | jmp | out | load | store => rfl

/-- With every register operand in range the body answers the effect. -/
theorem exec_of_inRange {i : Instr} {s : State} (h : ∀ r ∈ registerOperands i, r.toNat < s.config.nreg) :
    exec i s = .next (effect i s) := by
  rw [exec_eq_guarded, State.guarded_of_inRange fun r hr => decide_eq_true (h r hr)]

/-- All a phase-4 body can do: its effect, or with a register operand out of range nothing. -/
theorem exec_cases {i : Instr} {s t : State} (h : exec i s = .next t) :
    ((∀ r ∈ registerOperands i, r.toNat < s.config.nreg) ∧ t = effect i s) ∨
    ((∃ r ∈ registerOperands i, s.config.nreg ≤ r.toNat) ∧ t = s) := by
  by_cases hr : ∀ r ∈ registerOperands i, r.toNat < s.config.nreg
  · rw [exec_of_inRange hr] at h
    cases h
    exact .inl ⟨hr, rfl⟩
  · push Not at hr
    obtain ⟨r, hmem, hout⟩ := hr
    rw [exec_of_not_inRange hmem (State.inRange_eq_false_iff.2 hout)] at h
    cases h
    exact .inr ⟨⟨r, hmem, hout⟩, rfl⟩

/-- Settles O10. -/
theorem everyInstructionCompletes : Obligations.EveryInstructionCompletes := exec_completes

/-- Settles O14: every body is guarded by all its register operands. -/
theorem guardSkipsWholeEffect : Obligations.GuardSkipsWholeEffect :=
  fun _ _ _ hr hout => exec_of_not_inRange hr (State.inRange_eq_false_iff.2 hout)

/-! ### What no effect changes -/

@[simp] theorem effect_config (i : Instr) (s : State) : (effect i s).config = s.config := by cases i <;> rfl

@[simp] theorem effect_diagnostics (i : Instr) (s : State) : (effect i s).diagnostics = s.diagnostics := by cases i <;> rfl

theorem exec_config {i : Instr} {s t : State} (h : exec i s = .next t) : t.config = s.config := by
  obtain ⟨-, rfl⟩ | ⟨-, rfl⟩ := exec_cases h
  · exact effect_config i s
  · rfl

theorem exec_diagnostics {i : Instr} {s t : State} (h : exec i s = .next t) : t.diagnostics = s.diagnostics := by
  obtain ⟨-, rfl⟩ | ⟨-, rfl⟩ := exec_cases h
  · exact effect_diagnostics i s
  · rfl

theorem wf_setPc {s : State} (h : Wf s = true) (v : Word) : Wf (s.setPc v) = true := wf_writeReg h _ v

theorem wf_setZ {s : State} (h : Wf s = true) (r : Word) : Wf (s.setZ r) = true := wf_writeReg h _ _

/-- Every effect is a write of a register, a flag update, a write of a byte, or the latch, and each keeps a state well-formed. -/
theorem wf_effect {s : State} (h : Wf s = true) (i : Instr) : Wf (effect i s) = true := by
  cases i with
  | nop => exact h
  | halt => exact h
  | movi | mov | load => exact wf_writeReg h _ _
  | add | sub => exact wf_setZ (wf_writeReg h _ _) _
  | cmp => exact wf_setZ h _
  | jmp | jz | jnz => exact wf_setPc h _
  | out | store => exact wf_memWrite h _ _

theorem wf_exec {i : Instr} {s t : State} (hw : Wf s = true) (h : exec i s = .next t) : Wf t = true := by
  obtain ⟨-, rfl⟩ | ⟨-, rfl⟩ := exec_cases h
  · exact wf_effect hw i
  · exact hw

end Sys2Proof.Machine
end

section
/-! PROOF. What every step keeps (spec/10_state.md sections 2 and 6, spec/60_exceptions.md section 1): well-formedness, the parameters and
the diagnostic record. -/

namespace Sys2Proof.Machine

open Sys2Proof.Safety

/-! ### A fetch moves `pc` and does nothing else -/

theorem State.fetchBytes_state (n : Nat) (s : State) : ∃ v, (State.fetchBytes n s).2 = s.setPc v := by
  induction n generalizing s with
  | zero => exact ⟨s.pc, State.setPc_pc_self.symm⟩
  | succ n ih =>
    obtain ⟨v, hv⟩ := ih (s.setPc (s.pc + 1))
    exact ⟨v, hv.trans State.setPc_setPc⟩

theorem State.fetchInstr_state (s : State) : ∃ v, s.fetchInstr.2 = s.setPc v := by
  cases hm : decodeOpcode s.config.opc (s.memRead s.pc) with
  | none => exact ⟨_, by rw [State.fetchInstr_of_unknown hm]⟩
  | some m =>
    obtain ⟨v, hv⟩ := State.fetchBytes_state (operandCount m) (s.setPc (s.pc + 1))
    exact ⟨v, by rw [State.fetchInstr_of_decodeOpcode hm, State.fetch8_state, hv, State.setPc_setPc]⟩

/-- A step on a byte that is no opcode raises the unknown-opcode condition with `pc` past the byte (R121). -/
theorem step_of_unknown {s : State} (hs : s.halted = false) (hop : decodeOpcode s.config.opc (s.memRead s.pc) = none) :
    step s = .next ((s.setPc (s.pc + 1)).raiseUnknownOpcode (s.memRead s.pc) s.pc) := by
  simp [step, hs, State.fetchInstr_of_unknown hop]

/-- `step_cases` with the fetch told: from any state, a step on a recognised opcode runs a body on a state in which only `pc` has
moved. -/
theorem step_cases_setPc (s : State) :
    (s.halted = true ∧ step s = .next s) ∨
    (s.halted = false ∧ ∃ i v, decodeOpcode s.config.opc (s.memRead s.pc) = some (mnemonicOf i) ∧ step s = exec i (s.setPc v)) ∨
    (s.halted = false ∧ decodeOpcode s.config.opc (s.memRead s.pc) = none ∧
      step s = .next ((s.setPc (s.pc + 1)).raiseUnknownOpcode (s.memRead s.pc) s.pc)) := by
  obtain halted | ⟨hs, i, s', hf, he⟩ | ⟨hs, op, s', hf, -⟩ := step_cases s
  · exact .inl halted
  · obtain ⟨v, hv⟩ := s.fetchInstr_state
    rw [hf] at hv
    exact .inr (.inl ⟨hs, i, v, State.decodeOpcode_of_fetchInstr_ok hf, hv ▸ he⟩)
  · have hop := State.decodeOpcode_of_fetchInstr_error hf
    exact .inr (.inr ⟨hs, hop, step_of_unknown hs hop⟩)

/-! ### The invariants -/

/-- Settles O43: the fetch writes `pc`, the body keeps a state well-formed, and the unknown-opcode condition writes no register and no
byte. -/
theorem stepKeepsWellFormed : Obligations.StepKeepsWellFormed := by
  intro s t hw h
  obtain ⟨-, he⟩ | ⟨-, i, v, -, he⟩ | ⟨-, -, he⟩ := step_cases_setPc s
  · cases he.symm.trans h
    exact hw
  · exact wf_exec (wf_setPc hw v) (he ▸ h)
  · cases he.symm.trans h
    exact wf_setPc hw (s.pc + 1)

/-- Settles O39: neither the fetch nor a body touches the parameters or the record; the unknown-opcode condition adds its event. -/
theorem stepKeepsParametersAndReportsOnce : Obligations.StepKeepsParametersAndReportsOnce := by
  intro s t h
  obtain ⟨hs, he⟩ | ⟨-, i, v, hop, he⟩ | ⟨hs, hop, he⟩ := step_cases_setPc s
  · cases he.symm.trans h
    simp [hs]
  · have body : exec i (s.setPc v) = .next t := he ▸ h
    exact ⟨(exec_config body).trans (s.setPc_config v), by simp [exec_diagnostics body, hop]⟩
  · cases he.symm.trans h
    simp [hs, hop]

/-- A step from a state with no record leaves one exactly on an unknown opcode. -/
theorem faulted_after_step_iff {s t : State} (hf : Faulted s = false) (hs : s.halted = false) (h : step s = .next t) :
    Faulted t = true ↔ decodeOpcode s.config.opc (s.memRead s.pc) = none := by
  have empty : s.diagnostics = [] := by simpa [Faulted] using hf
  obtain ⟨-, record⟩ := stepKeepsParametersAndReportsOnce s t h
  simp [Faulted, record, empty, hs]

/-- Settles O40: the latch is set by HALT and by an unknown opcode, and only the latter leaves a record. -/
theorem faultRecordTellsHaltFromUnknown : Obligations.FaultRecordTellsHaltFromUnknown := by
  intro s t hf hs h
  have faulted := faulted_after_step_iff hf hs h
  refine ⟨?_, faulted⟩
  rw [HaltedNormally, Bool.and_eq_true, Bool.not_eq_true', ← Bool.not_eq_true, faulted, step_halted_iff hs h]
  exact ⟨fun ⟨hop, known⟩ => hop.resolve_right known, fun hop => ⟨.inl hop, by simp [hop]⟩⟩

end Sys2Proof.Machine
end

section
/-! PROOF. The step on given bytes (spec/40_fetch_decode.md sections 1 to 3): the decoded instruction, an unknown opcode, NOP, HALT, MOV
from PC and MOVI across the top of Memory. -/

namespace Sys2Proof.Machine

open Sys2Proof.Safety

/-- Settles O6. -/
theorem stepRunsDecodedInstruction : Obligations.StepRunsDecodedInstruction := fun _ _ _ => step_of_decode

theorem operandCount_le_three (m : Mnemonic) : operandCount m ≤ 3 := by cases m <;> decide

/-- The four bytes at `pc` hold the operands of every variant, so they fail to decode only where the first is no opcode. -/
theorem decodeOpcode_of_decode_error {s : State} {e : DecodeError}
    (h : decode s.config.opc (s.bytesFrom s.pc 4) = .error e) : decodeOpcode s.config.opc (s.memRead s.pc) = none := by
  cases hm : decodeOpcode s.config.opc (s.memRead s.pc) with
  | none => rfl
  | some m =>
    have there : operandCount m ≤ (s.bytesFrom (s.pc + 1) 3).length := by
      rw [State.bytesFrom_length]
      exact operandCount_le_three m
    rw [State.bytesFrom_succ, decode_eq_ok_iff.2 ⟨m, hm, there, rfl, rfl⟩] at h
    cases h

/-! ### An unknown opcode (R121) -/

theorem stepRequests_of_unknown {s : State} (hs : s.halted = false)
    (hop : decodeOpcode s.config.opc (s.memRead s.pc) = none) : stepRequests s = [.read s.pc] := by
  simp [stepRequests, hs, State.fetchInstr_of_unknown hop, fetchRequests]

/-- Settles O8: `pc` moves past the byte, and the condition adds the latch and the event. -/
theorem unknownOpcodeHalts : Obligations.UnknownOpcodeHalts := by
  intro s hw hs hout
  have hop := decodeOpcode_eq_none_iff.2 hout
  have hstep := step_of_unknown hs hop
  obtain ⟨hregs, hmem, -⟩ := s.setPc_frame (s.pc + 1)
  exact ⟨_, hstep, rfl, State.pc_setPc (wf_pcIdx hw), hregs, hmem, rfl, rfl, stepReturns_eq_not_halted hstep,
    stepRequests_of_unknown hs hop⟩

/-! ### HALT (R91) -/

/-- A step on the opcode byte of a variant without operands runs it with `pc` one past the byte. -/
theorem step_of_oneByte {s : State} {m : Mnemonic} (hm : operandCount m = 0) (hw : Wf s = true) (hs : s.halted = false)
    (h : s.memRead s.pc = opcodeOf s.config.opc m) : step s = exec (decodeOperands m []) (s.setPc (s.pc + 1)) := by
  have variant := step_of_variantBytes (m := m) (operands := []) hw hs (by rw [hm, State.bytesFrom_succ, h]; rfl)
  rwa [hm] at variant

theorem step_halt {s : State} (hw : Wf s = true) (hs : s.halted = false) (h : s.memRead s.pc = s.config.opc.halt) :
    step s = .next (s.setPc (s.pc + 1)).halt :=
  step_of_oneByte (m := .halt) rfl hw hs h

/-- Settles O17: the body sets the latch alone, and the step moves `pc` past the byte before it. -/
theorem haltLatches : Obligations.HaltLatches := by
  refine ⟨fun s => ⟨_, exec_halt s, rfl, fun _ _ => rfl, fun _ => rfl, rfl, rfl⟩, fun s hw hs h => ?_⟩
  have hstep := step_halt hw hs h
  obtain ⟨hregs, hmem, -⟩ := s.setPc_frame (s.pc + 1)
  exact ⟨_, hstep, rfl, State.pc_setPc (wf_pcIdx hw), hregs, hmem, rfl, stepReturns_eq_not_halted hstep⟩

/-! ### NOP and a stream of NOPs (R90) -/

theorem step_nop {s : State} (hw : Wf s = true) (hs : s.halted = false) (h : s.memRead s.pc = s.config.opc.nop) :
    step s = .next (s.setPc (s.pc + 1)) :=
  step_of_oneByte (m := .nop) rfl hw hs h

/-- `s` with `pc` moved `k` bytes on. -/
def State.advance (s : State) (k : Nat) : State := s.setPc (s.pc + BitVec.ofNat 16 k)

theorem State.advance_zero (s : State) : s.advance 0 = s := by simp [State.advance]

theorem State.pc_advance {s : State} (hw : Wf s = true) (k : Nat) : (s.advance k).pc = s.pc + BitVec.ofNat 16 k :=
  State.pc_setPc (wf_pcIdx hw)

theorem State.setPc_advance {s : State} (hw : Wf s = true) (k : Nat) :
    (s.advance k).setPc ((s.advance k).pc + 1) = s.advance (k + 1) := by
  rw [State.pc_advance hw, State.advance, State.setPc_setPc, State.advance, BitVec.add_assoc, BitVec.ofNat_add]
  rfl

/-- The states of a run through `n` NOPs and the HALT after them. -/
def nopRun (s : State) (n k : Nat) : State := if k ≤ n then s.advance k else (s.advance (n + 1)).halt

theorem nopRun_of_le {s : State} {n k : Nat} (h : k ≤ n) : nopRun s n k = s.advance k := if_pos h

theorem nopRun_succ_self (s : State) (n : Nat) : nopRun s n (n + 1) = (s.advance (n + 1)).halt :=
  if_neg (Nat.not_succ_le_self n)

/-- Each state of the run steps to the one after it: on a NOP up to the `n`-th, on the HALT there. -/
theorem step_nopRun {s : State} {n k : Nat} (hw : Wf s = true) (hs : s.halted = false)
    (hnop : ∀ k, k < n → s.memRead (s.pc + BitVec.ofNat 16 k) = s.config.opc.nop)
    (hhalt : s.memRead (s.pc + BitVec.ofNat 16 n) = s.config.opc.halt) (hk : k ≤ n) :
    step (nopRun s n k) = .next (nopRun s n (k + 1)) := by
  rw [nopRun_of_le hk]
  have hw' : Wf (s.advance k) = true := wf_setPc hw _
  have byte : (s.advance k).memRead (s.advance k).pc = s.memRead (s.pc + BitVec.ofNat 16 k) := by
    rw [State.pc_advance hw, State.advance, State.setPc_memRead]
  by_cases hlt : k < n
  · rw [step_nop hw' hs (byte.trans (hnop k hlt)), State.setPc_advance hw, nopRun_of_le hlt]
  · obtain rfl : k = n := by omega
    rw [step_halt hw' hs (byte.trans hhalt), State.setPc_advance hw, nopRun_succ_self]

/-- Every state of the run has the latch clear before the HALT and set after it. -/
theorem nopRun_halted {s : State} (hs : s.halted = false) (n k : Nat) : (nopRun s n k).halted = decide (n < k) := by
  by_cases h : k ≤ n
  · rw [nopRun_of_le h, decide_eq_false (Nat.not_lt.2 h)]
    exact hs
  · rw [nopRun, if_neg h, decide_eq_true (Nat.lt_of_not_le h)]
    rfl

theorem nopRun_frame (s : State) (n k : Nat) :
    RegistersKeptExcept [s.config.pcIdx] s (nopRun s n k) ∧ MemoryKept s (nopRun s n k) := by
  unfold nopRun
  split
  · obtain ⟨hregs, hmem, -⟩ := s.setPc_frame (s.pc + BitVec.ofNat 16 k)
    exact ⟨hregs, hmem⟩
  · obtain ⟨hregs, hmem, -⟩ := s.setPc_frame (s.pc + BitVec.ofNat 16 (n + 1))
    exact ⟨hregs, hmem⟩

/-- Settles O16: each NOP moves `pc` by one, so the run is `nopRun`, whose latch tells what each step returns. -/
theorem nopOnlyMovesPc : Obligations.NopOnlyMovesPc := by
  refine ⟨fun _ => rfl, fun s hw hs h => ?_, by decide, fun s n hw hs hnop hhalt => ?_⟩
  · have hstep := step_nop hw hs h
    obtain ⟨hregs, hmem, hctl⟩ := s.setPc_frame (s.pc + 1)
    exact ⟨_, hstep, State.pc_setPc (wf_pcIdx hw), hregs, hmem, hctl, stepReturns_of_step_setPc hs hstep⟩
  · refine ⟨nopRun s n, (nopRun_of_le n.zero_le).trans s.advance_zero, fun k hk => ?_, fun k _ => nopRun_frame s n k⟩
    have hstep := step_nopRun hw hs hnop hhalt hk
    refine ⟨hstep, ?_⟩
    rw [stepReturns_eq_not_halted hstep, nopRun_halted hs, ← decide_not]
    exact decide_eq_decide.2 (by omega)

/-! ### MOV from PC, and MOVI across the top of Memory -/

/-- Settles O21: the fetch has moved `pc` past the three bytes when MOV reads it, and a copy to PC gives it the value it has. -/
theorem pcOperandReadsNextAddress : Obligations.PcOperandReadsNextAddress := by
  intro s reg1 reg2 hw hs hreg1 hpc h
  have hw' := wf_setPc hw (s.pc + 3)
  have source : (s.setPc (s.pc + 3)).readReg reg2.toNat = s.pc + 3 := by
    rw [hpc]
    exact State.pc_setPc (wf_pcIdx hw)
  have inRange : ∀ r ∈ registerOperands (.mov reg1 reg2), r.toNat < s.config.nreg := by
    simpa [registerOperands, hreg1, hpc] using (config_facts (wf_config hw)).1
  have hstep : step s = .next ((s.setPc (s.pc + 3)).writeReg reg1.toNat (s.pc + 3)) :=
    calc step s
      _ = exec (.mov reg1 reg2) (s.setPc (s.pc + 3)) := step_of_threeBytes (m := .mov) rfl hw hs h
      _ = .next (effect (.mov reg1 reg2) (s.setPc (s.pc + 3))) := exec_of_inRange inRange
      _ = .next ((s.setPc (s.pc + 3)).writeReg reg1.toNat (s.pc + 3)) := by rw [effect, source]
  refine ⟨_, hstep, State.readReg_writeReg_self (wf_length hw' ▸ hreg1), ?_⟩
  rw [State.pc, State.readReg_writeReg]
  split
  · rfl
  · exact State.pc_setPc (wf_pcIdx hw)

/-- Settles O13: the four bytes at 0xFFFE are those of 0xFFFE, 0xFFFF, 0x0000 and 0x0001. -/
theorem fetchWrapsAtTheTopOfMemory : Obligations.FetchWrapsAtTheTopOfMemory := by
  intro s hw hs hpc hop hreg hne
  have bytes : s.bytesFrom s.pc 4 = [s.config.opc.movi, s.memRead 0xFFFF, s.memRead 0x0000, s.memRead 0x0001] := by
    rw [hpc, ← hop]
    rfl
  have inRange : ∀ r ∈ registerOperands (.movi (s.memRead 0xFFFF) (wordOfBytes (s.memRead 0x0000) (s.memRead 0x0001))),
      r.toNat < s.config.nreg := by
    simpa [registerOperands] using hreg
  have hstep : step s = .next ((s.setPc (s.pc + 4)).writeReg (s.memRead 0xFFFF).toNat
      (wordOfBytes (s.memRead 0x0000) (s.memRead 0x0001))) :=
    (step_of_variantBytes (m := .movi) hw hs bytes).trans (exec_of_inRange inRange)
  refine ⟨_, hstep, ?_, ?_⟩
  · calc ((s.setPc (s.pc + 4)).writeReg (s.memRead 0xFFFF).toNat _).pc
      _ = (s.setPc (s.pc + 4)).pc := State.readReg_writeReg_ne hne
      _ = 0x0002 := by rw [State.pc_setPc (wf_pcIdx hw), hpc]; rfl
  · rw [State.readReg_writeReg_self (wf_operand (wf_setPc hw _) (decide_eq_true hreg))]
    exact wordOfBytes_toNat _ _

/-! ### The word that `withFetchWord` stores (30_encoding.md section 7) -/

/-- Placing bytes changes Memory alone and keeps a state well-formed. -/
theorem wf_placeBytes {s : State} (hw : Wf s = true) (a : Word) (bs : List Byte) :
    ∃ m, s.placeBytes a bs = { s with mem := m } ∧ Wf (s.placeBytes a bs) = true := by
  obtain ⟨hcfg, hlen, hmem, hin⟩ := wf_iff.1 hw
  obtain ⟨m, hm, hmem', hin'⟩ := State.placeBytes_keeps hmem hin (wf_memSize hw) a bs
  exact ⟨m, hm, hm ▸ wf_iff.2 ⟨hcfg, hlen, hmem', hin'⟩⟩

theorem State.memRead_memWrite {s : State} (hw : Wf s = true) (a : Word) (b : Byte) (a' : Word) :
    (s.memWrite a b).memRead a' = if s.cellIndex a' = s.cellIndex a then b else s.memRead a' :=
  State.byteAt_memWrite hw a b (s.cellIndex a')

/-- Placing bytes changes no cell but those of their addresses. -/
theorem State.memRead_placeBytes_of_ne {s : State} (hw : Wf s = true) {a a' : Word} {bs : List Byte}
    (h : ∀ k < bs.length, s.cellIndex a' ≠ s.cellIndex (a + BitVec.ofNat 16 k)) :
    (s.placeBytes a bs).memRead a' = s.memRead a' := by
  induction bs generalizing s a with
  | nil => rfl
  | cons b bs ih =>
    have first : s.cellIndex a' ≠ s.cellIndex a := by simpa using h 0 (by simp)
    have others : ∀ k < bs.length, s.cellIndex a' ≠ s.cellIndex (a + 1 + BitVec.ofNat 16 k) := fun k hk => by
      have next := h (k + 1) (by simpa using hk)
      rwa [Nat.add_comm, BitVec.ofNat_add, ← BitVec.add_assoc] at next
    rw [State.placeBytes, ih (wf_memWrite hw a b) others, State.memRead_memWrite hw, if_neg first]

theorem State.cellIndex_of_full {s : State} (h : s.config.memSize = 65536) (a : Word) : s.cellIndex a = a.toNat := by
  rw [State.cellIndex, h, Nat.mod_eq_of_lt a.isLt]

/-- In a full Memory no two of up to 65536 successive addresses name one cell, so the bytes placed are the bytes there. -/
theorem State.bytesFrom_placeBytes {s : State} (hw : Wf s = true) (hfull : s.config.memSize = 65536) {a : Word}
    {bs : List Byte} (hlen : bs.length ≤ 65536) : (s.placeBytes a bs).bytesFrom a bs.length = bs := by
  induction bs generalizing s a with
  | nil => rfl
  | cons b bs ih =>
    rw [List.length_cons] at hlen
    have hw' := wf_memWrite hw a b
    have apart : ∀ k < bs.length,
        (s.memWrite a b).cellIndex a ≠ (s.memWrite a b).cellIndex (a + 1 + BitVec.ofNat 16 k) := fun k hk => by
      rw [State.memWrite_cellIndex, State.memWrite_cellIndex, State.cellIndex_of_full hfull, State.cellIndex_of_full hfull]
      bv_omega
    have head : (s.placeBytes a (b :: bs)).memRead a = b := by
      rw [State.placeBytes, State.memRead_placeBytes_of_ne hw' apart, State.memRead_memWrite hw, if_pos rfl]
    rw [List.length_cons, State.bytesFrom_succ, head, State.placeBytes, ih hw' hfull (by omega)]

@[simp] theorem tableBytes_length (nbits w : Nat) : (tableBytes nbits w).length = 4 := by simp [tableBytes, longestInstr]

theorem decode_of_decodeTableWord {nbits w : Nat} {i : Instr} (h : decodeTableWord nbits w = some i) :
    ∃ rest, decode defaultOpcodes (tableBytes nbits w) = .ok (i, rest) := by
  unfold decodeTableWord at h
  split at h
  · cases h
    exact ⟨_, by assumption⟩
  · cases h

/-- Settles O5: the four bytes at `pc` are those of the word, and storing them moved neither `pc` nor anything else but Memory. -/
theorem withFetchWordRunsTheTableInstruction : Obligations.WithFetchWordRunsTheTableInstruction := by
  intro s nbits w i hw hs hopc hfull hword
  obtain ⟨rest, hdecode⟩ := decode_of_decodeTableWord hword
  obtain ⟨m, hplaced, hw'⟩ := wf_placeBytes hw s.pc (tableBytes nbits w)
  have bytes : (s.placeBytes s.pc (tableBytes nbits w)).bytesFrom s.pc 4 = tableBytes nbits w :=
    State.bytesFrom_placeBytes hw hfull (bs := tableBytes nbits w) (by simp)
  rw [State.withFetchWord]
  rw [hplaced] at bytes hw' ⊢
  exact step_of_decode hw' hs (by rw [← hdecode, ← hopc]; exact congrArg _ bytes)

end Sys2Proof.Machine
end

section
/-! PROOF. Register moves (spec/42_move.md), arithmetic and compare (spec/43_alu.md), and what becomes of FL (spec/10_state.md
section 4). -/

namespace Sys2Proof.Machine

open Sys2Proof.Safety

/-! ### Register moves -/

theorem State.writeReg_frame (s : State) (i : Nat) (v : Word) :
    RegistersKeptExcept [i] s (s.writeReg i v) ∧ MemoryKept s (s.writeReg i v) ∧ ControlKept s (s.writeReg i v) :=
  ⟨fun _ hj => State.readReg_writeReg_ne fun e => hj (List.mem_singleton.2 e.symm), fun _ => rfl, rfl, rfl, rfl⟩

/-- A register of the configuration is an entry of the file of a well-formed state. -/
theorem wf_register {s : State} (hw : Wf s = true) {j : Nat} (h : j < s.config.nreg) : j < s.regs.length :=
  wf_length hw ▸ h

/-- Settles O19. -/
theorem moviWritesImmediate : Obligations.MoviWritesImmediate := by
  intro s reg imm16 hw hreg
  exact ⟨_, exec_of_inRange (by simpa [registerOperands] using hreg), State.readReg_writeReg_self (wf_register hw hreg),
    s.writeReg_frame reg.toNat imm16⟩

/-- Settles O20. -/
theorem movCopiesRegister : Obligations.MovCopiesRegister := by
  intro s reg1 reg2 hw hreg1 hreg2
  exact ⟨_, exec_of_inRange (by simpa [registerOperands] using ⟨hreg1, hreg2⟩),
    State.readReg_writeReg_self (wf_register hw hreg1), s.writeReg_frame reg1.toNat _⟩

/-! ### The results of the ALU (R103) -/

theorem addWrap_eq (u v : Word) : addWrap u v = u + v := rfl

theorem ofInt_sub (x y : Int) : (BitVec.ofInt 16 (x - y) : Word) = BitVec.ofInt 16 x - BitVec.ofInt 16 y := by
  rw [Int.sub_eq_add_neg, BitVec.ofInt_add, BitVec.ofInt_neg, ← BitVec.sub_eq_add_neg]

theorem subWrap_eq (u v : Word) : subWrap u v = u - v := by
  rw [subWrap, ofInt_sub, BitVec.ofInt_natCast, BitVec.ofInt_natCast, BitVec.ofNat_toNat, BitVec.ofNat_toNat,
    BitVec.setWidth_eq, BitVec.setWidth_eq]

theorem addWrap_toNat (u v : Word) : (addWrap u v).toNat = (u.toNat + v.toNat) % 65536 := BitVec.toNat_add u v

theorem subWrap_toNat (u v : Word) :
    (subWrap u v).toNat = if v.toNat ≤ u.toNat then u.toNat - v.toNat else u.toNat + 65536 - v.toNat := by
  rw [subWrap_eq, BitVec.toNat_sub]
  split <;> omega

/-- The sum is zero when the two numbers add up to nothing or to 65536. -/
theorem addWrap_eq_zero_iff (u v : Word) : addWrap u v = 0 ↔ (u.toNat + v.toNat) % 65536 = 0 := by
  rw [← addWrap_toNat, BitVec.toNat_eq]
  rfl

theorem subWrap_eq_zero_iff (u v : Word) : subWrap u v = 0 ↔ u = v := by
  rw [subWrap_eq]
  exact sub_eq_zero

/-- Settles O27: both results are the ring operations of words, which two's complement respects. -/
theorem aluResultsWrapModulo65536 : Obligations.AluResultsWrapModulo65536 := by
  intro u v
  refine ⟨addWrap_toNat u v, subWrap_toNat u v, ?_, ?_⟩
  · rw [addWrap_eq, BitVec.ofInt_add, BitVec.ofInt_toInt, BitVec.ofInt_toInt]
  · rw [subWrap_eq, ofInt_sub, BitVec.ofInt_toInt, BitVec.ofInt_toInt]

/-! ### The flag update and the written result -/

theorem State.fl_setZ {s : State} (hw : Wf s = true) (r : Word) : (s.setZ r).fl = flagUpdate s.fl r :=
  State.fl_setFl (wf_flIdx hw)

theorem State.fl_writeResult {s : State} (hw : Wf s = true) (reg : Byte) (r : Word) :
    (s.writeResult reg r).fl = flagUpdate (s.writeReg reg.toNat r).fl r :=
  State.fl_setZ (wf_writeReg hw reg.toNat r) r

/-- With another destination than FL the flags are those of the update alone. -/
theorem State.fl_writeResult_of_ne {s : State} (hw : Wf s = true) {reg : Byte} (hreg : reg.toNat ≠ s.config.flIdx) (r : Word) :
    (s.writeResult reg r).fl = flagUpdate s.fl r := by
  rw [State.fl_writeResult hw]
  exact congrArg (flagUpdate · r) (State.readReg_writeReg_ne hreg)

/-- With destination FL the result stands there when bit 0 is replaced (R100 (f)). -/
theorem State.fl_writeResult_of_eq {s : State} (hw : Wf s = true) {reg : Byte} (hreg : reg.toNat = s.config.flIdx) (r : Word) :
    (s.writeResult reg r).fl = flagUpdate r r := by
  rw [State.fl_writeResult hw, hreg]
  exact congrArg (flagUpdate · r) (State.fl_setFl (wf_flIdx hw))

theorem State.readReg_setZ_of_ne {s : State} {j : Nat} (h : j ≠ s.config.flIdx) (r : Word) :
    (s.setZ r).readReg j = s.readReg j :=
  State.readReg_writeReg_ne h.symm

theorem State.readReg_writeResult_self {s : State} (hw : Wf s = true) {reg : Byte} (hreg : reg.toNat < s.config.nreg)
    (hne : reg.toNat ≠ s.config.flIdx) (r : Word) : (s.writeResult reg r).readReg reg.toNat = r :=
  (State.readReg_setZ_of_ne (s := s.writeReg reg.toNat r) hne r).trans (State.readReg_writeReg_self (wf_register hw hreg))

theorem State.readReg_writeResult_of_ne {s : State} {reg : Byte} {j : Nat} (hj : reg.toNat ≠ j) (hfl : j ≠ s.config.flIdx)
    (r : Word) : (s.writeResult reg r).readReg j = s.readReg j :=
  (State.readReg_setZ_of_ne (s := s.writeReg reg.toNat r) hfl r).trans (State.readReg_writeReg_ne hj)

theorem flagUpdate_upperKept (fl r : Word) : UpperFlagsKept fl (flagUpdate fl r) := fun _ hk => flagUpdate_upper fl r hk

/-- All that writing a result does, for both ADD and SUB (R83). -/
theorem State.writeResult_effect {s : State} (hw : Wf s = true) {reg : Byte} (hreg : reg.toNat < s.config.nreg) (r : Word) :
    (s.writeResult reg r).fl.getLsbD 0 = decide (r = 0) ∧
    (if reg.toNat = s.config.flIdx then UpperFlagsKept r (s.writeResult reg r).fl
      else (s.writeResult reg r).readReg reg.toNat = r ∧ UpperFlagsKept s.fl (s.writeResult reg r).fl) ∧
    RegistersKeptExcept [reg.toNat, s.config.flIdx] s (s.writeResult reg r) ∧ MemoryKept s (s.writeResult reg r) ∧
    ControlKept s (s.writeResult reg r) := by
  refine ⟨?_, ?_, fun j hj => ?_, fun _ => rfl, rfl, rfl, rfl⟩
  · rw [State.fl_writeResult hw, flagUpdate_bit_zero]
  · split_ifs with hfl
    · rw [State.fl_writeResult_of_eq hw hfl]
      exact flagUpdate_upperKept r r
    · rw [State.fl_writeResult_of_ne hw hfl]
      exact ⟨State.readReg_writeResult_self hw hreg hfl r, flagUpdate_upperKept s.fl r⟩
  · simp only [List.mem_cons, List.not_mem_nil, or_false, not_or] at hj
    exact State.readReg_writeResult_of_ne (Ne.symm hj.1) hj.2 r

/-! ### ADD, SUB and CMP -/

theorem registerOperands_pair_inRange {s : State} {reg1 reg2 : Byte} (h1 : reg1.toNat < s.config.nreg)
    (h2 : reg2.toNat < s.config.nreg) : ∀ r ∈ [reg1, reg2], r.toNat < s.config.nreg := by
  simp [h1, h2]

theorem exec_add {s : State} {reg1 reg2 : Byte} (h1 : reg1.toNat < s.config.nreg) (h2 : reg2.toNat < s.config.nreg) :
    exec (.add reg1 reg2) s = .next (s.writeResult reg1 (addWrap (s.readReg reg1.toNat) (s.readReg reg2.toNat))) :=
  exec_of_inRange (registerOperands_pair_inRange h1 h2)

theorem exec_sub {s : State} {reg1 reg2 : Byte} (h1 : reg1.toNat < s.config.nreg) (h2 : reg2.toNat < s.config.nreg) :
    exec (.sub reg1 reg2) s = .next (s.writeResult reg1 (subWrap (s.readReg reg1.toNat) (s.readReg reg2.toNat))) :=
  exec_of_inRange (registerOperands_pair_inRange h1 h2)

/-- Settles O22. -/
theorem addWritesSumAndZ : Obligations.AddWritesSumAndZ := by
  intro s reg1 reg2 hw h1 h2 r
  have sum : r = addWrap (s.readReg reg1.toNat) (s.readReg reg2.toNat) := by
    rw [← BitVec.setWidth_eq (addWrap _ _), ← BitVec.ofNat_toNat, addWrap_toNat]
  exact ⟨_, sum ▸ exec_add h1 h2, State.writeResult_effect hw h1 r⟩

/-- Settles O23: the difference is zero exactly when the operands are equal. -/
theorem subWritesDifferenceAndZ : Obligations.SubWritesDifferenceAndZ := by
  intro s reg1 reg2 hw h1 h2 u v r
  have difference : r = subWrap (s.readReg reg1.toNat) (s.readReg reg2.toNat) := by
    rw [← BitVec.setWidth_eq (subWrap _ _), ← BitVec.ofNat_toNat, subWrap_toNat]
  have zero : r = 0 ↔ u = v := by
    rw [difference, subWrap_eq_zero_iff]
    exact BitVec.toNat_eq
  obtain ⟨hz, hrest⟩ := State.writeResult_effect hw h1 r
  exact ⟨_, difference ▸ exec_sub h1 h2, hz.trans (decide_eq_decide.2 zero), hrest⟩

/-- Settles O24: CMP is the flag update from the difference. -/
theorem cmpSetsZOnly : Obligations.CmpSetsZOnly := by
  intro s reg1 reg2 hw h1 h2
  refine ⟨_, exec_of_inRange (registerOperands_pair_inRange h1 h2), ?_, ?_, s.writeReg_frame s.config.flIdx _⟩
  · rw [effect, State.fl_setZ hw, flagUpdate_bit_zero, decide_eq_decide, subWrap_eq_zero_iff]
  · rw [effect, State.fl_setZ hw]
    exact flagUpdate_upperKept _ _

theorem flagUpdate_self (r : Word) : flagUpdate r r = if r = 0 then 0x0001 else r &&& 0xFFFE := by
  unfold flagUpdate
  split
  · simp [*]
  · exact BitVec.or_zero

/-- Settles O25: FL holds the result when its bit 0 is replaced. -/
theorem addToFlagsRegister : Obligations.AddToFlagsRegister := by
  intro s reg1 reg2 hw h1 h2
  have inRange : reg1.toNat < s.config.nreg := h1 ▸ (config_facts (wf_config hw)).2.1
  refine ⟨_, exec_add inRange h2, ?_⟩
  rw [State.fl_writeResult_of_eq hw h1, flagUpdate_self, h1]
  rfl

theorem generalPurpose_iff {s : State} {j : Nat} :
    GeneralPurpose s j = true ↔ j < s.config.nreg ∧ j ≠ s.config.pcIdx ∧ j ≠ s.config.flIdx := by
  simp [GeneralPurpose]

/-- Settles O26. -/
theorem sameRegisterAsSourceAndDestination : Obligations.SameRegisterAsSourceAndDestination := by
  intro s reg hw hgp
  obtain ⟨hreg, -, hfl⟩ := generalPurpose_iff.1 hgp
  refine ⟨⟨_, exec_add hreg hreg, ?_⟩, ⟨_, exec_sub hreg hreg, ?_, ?_⟩, ?_⟩
  · rw [State.readReg_writeResult_self hw hreg hfl, addWrap_toNat, Nat.two_mul]
  · rw [State.readReg_writeResult_self hw hreg hfl, subWrap_eq_zero_iff]
  · rw [State.fl_writeResult hw, flagUpdate_bit_zero, decide_eq_true_eq, subWrap_eq_zero_iff]
  · rw [exec_of_inRange (i := .mov reg reg) (registerOperands_pair_inRange hreg hreg), effect, State.writeReg_readReg]

/-! ### FL after an instruction (R19, R20) -/

/-- The result that an instruction sets Z from, if it is one of the three that do. -/
def aluResult : Instr → State → Option Word
  | .add reg1 reg2, s => some (addWrap (s.readReg reg1.toNat) (s.readReg reg2.toNat))
  | .sub reg1 reg2, s | .cmp reg1 reg2, s => some (subWrap (s.readReg reg1.toNat) (s.readReg reg2.toNat))
  | _, _ => none

/-- An effect whose destination is not FL leaves FL, or updates it from the result. -/
theorem effect_fl {i : Instr} {s : State} (hw : Wf s = true) (hd : ∀ r, destination i = some r → r.toNat ≠ s.config.flIdx) :
    (effect i s).fl = (aluResult i s).elim s.fl (flagUpdate s.fl) := by
  cases i with
  | nop | halt | out | store => rfl
  | movi | mov | load => exact State.readReg_writeReg_ne (hd _ rfl)
  | add | sub => exact State.fl_writeResult_of_ne hw (hd _ rfl) _
  | cmp => exact State.fl_setZ hw _
  | jmp | jz | jnz => exact State.fl_setPc hw _

theorem effect_upperFlagsKept {i : Instr} {s : State} (hw : Wf s = true)
    (hd : ∀ r, destination i = some r → r.toNat ≠ s.config.flIdx) : UpperFlagsKept s.fl (effect i s).fl := by
  rw [effect_fl hw hd]
  cases aluResult i s with
  | none => exact fun _ _ => rfl
  | some r => exact flagUpdate_upperKept s.fl r

theorem exec_upperFlagsKept {i : Instr} {s t : State} (hw : Wf s = true)
    (hd : ∀ r, destination i = some r → r.toNat ≠ s.config.flIdx) (h : exec i s = .next t) : UpperFlagsKept s.fl t.fl := by
  obtain ⟨-, rfl⟩ | ⟨-, rfl⟩ := exec_cases h
  · exact effect_upperFlagsKept hw hd
  · exact fun _ _ => rfl

/-- Z after an effect whose destination is not FL: whether the result is zero, or as before. -/
theorem effect_zero_iff {i : Instr} {s : State} (hw : Wf s = true)
    (hd : ∀ r, destination i = some r → r.toNat ≠ s.config.flIdx) :
    (effect i s).fl.getLsbD 0 = true ↔ (aluResult i s).elim (s.fl.getLsbD 0 = true) (· = 0) := by
  rw [effect_fl hw hd]
  cases aluResult i s with
  | none => rfl
  | some r => rw [Option.elim_some, Option.elim_some, flagUpdate_bit_zero, decide_eq_true_eq]

/-- Settles O28: the guard decides between the flags of the effect and those of the state. -/
theorem zFollowsFlagAffectingOperations : Obligations.ZFollowsFlagAffectingOperations := by
  intro i s t hw hd h
  refine ⟨?_, exec_upperFlagsKept hw hd h⟩
  obtain ⟨hin, rfl⟩ | ⟨⟨r, hr, hout⟩, rfl⟩ := exec_cases h
  · rw [effect_zero_iff hw hd]
    cases i with
    | nop | halt | movi | mov | jmp | jz | jnz | out | load | store => rfl
    | add reg1 reg2 =>
      have ok : reg1.toNat < s.config.nreg ∧ reg2.toNat < s.config.nreg := by simpa [registerOperands] using hin
      exact (addWrap_eq_zero_iff _ _).trans (by simp [ok])
    | sub reg1 reg2 | cmp reg1 reg2 =>
      have ok : reg1.toNat < s.config.nreg ∧ reg2.toNat < s.config.nreg := by simpa [registerOperands] using hin
      exact (subWrap_eq_zero_iff _ _).trans (by simp [ok, BitVec.toNat_eq])
  · cases i with
    | nop | halt | movi | mov | jmp | jz | jnz | out | load | store => rfl
    | add reg1 reg2 | sub reg1 reg2 | cmp reg1 reg2 =>
      have skipped : ¬ (reg1.toNat < t.config.nreg ∧ reg2.toNat < t.config.nreg) := fun ok =>
        Nat.not_lt.2 hout (registerOperands_pair_inRange ok.1 ok.2 r hr)
      simp [skipped]

/-- A word is 0 or 1 exactly when its bits 15 to 1 are clear. -/
theorem word_eq_zero_or_one_iff (w : Word) : w = 0 ∨ w = 1 ↔ ∀ k, 0 < k → w.getLsbD k = false := by
  constructor
  · rintro (rfl | rfl) k hk
    · exact BitVec.getLsbD_zero
    · simp [BitVec.getLsbD_one, hk.ne']
  · intro clear
    cases h0 : w.getLsbD 0 with
    | false =>
      refine .inl (BitVec.eq_of_getLsbD_eq fun k _ => ?_)
      cases k with
      | zero => exact h0
      | succ k => simp [clear]
    | true =>
      refine .inr (BitVec.eq_of_getLsbD_eq fun k _ => ?_)
      cases k with
      | zero => exact h0
      | succ k => simp [clear, BitVec.getLsbD_one]

/-- Bits 15 to 1 of FL stay in a step that runs no instruction with destination FL: the fetch keeps FL, the body keeps those bits, and the
unknown-opcode condition writes no register. -/
theorem step_upperFlagsKept {s t : State} (hw : Wf s = true)
    (hd : ∀ (i : Instr) (rest : List Byte), s.halted = false → decode s.config.opc (s.bytesFrom s.pc 4) = .ok (i, rest) →
      ∀ r, destination i = some r → r.toNat ≠ s.config.flIdx)
    (h : step s = .next t) : UpperFlagsKept s.fl t.fl := by
  cases hs : s.halted with
  | true =>
    cases (step_of_halted hs).symm.trans h
    exact fun _ _ => rfl
  | false =>
    rcases hdec : decode s.config.opc (s.bytesFrom s.pc 4) with e | ⟨i, rest⟩
    · cases (step_of_unknown hs (decodeOpcode_of_decode_error hdec)).symm.trans h
      exact fun k _ => congrArg (BitVec.getLsbD · k) (State.fl_setPc hw (s.pc + 1))
    · rw [step_of_decode hw hs hdec] at h
      rw [← State.fl_setPc hw (s.pc + BitVec.ofNat 16 (lengthOf i))]
      exact exec_upperFlagsKept (wf_setPc hw _) (hd i rest hs hdec) h

/-- Settles O41: with bits 15 to 1 kept, FL is 0 or 1 after the step if it was before. -/
theorem upperFlagBitsStay : Obligations.UpperFlagBitsStay := by
  intro s t hw hd h
  have kept := step_upperFlagsKept hw hd h
  refine ⟨kept, ?_⟩
  rw [word_eq_zero_or_one_iff, word_eq_zero_or_one_iff]
  exact fun clear k hk => (kept k hk).trans (clear k hk)

end Sys2Proof.Machine
end

section
/-! PROOF. Memory and ports (spec/20_memory.md, spec/45_memory_io.md): what STORE, OUT and LOAD do, and what a read gives after writes. -/

namespace Sys2Proof.Machine

open Sys2Proof.Safety

/-! ### One byte -/

theorem lowByte_toNat (w : Word) : (lowByte w).toNat = w.toNat % 256 := by
  simp [lowByte]

theorem lowByte_eq (w : Word) : lowByte w = BitVec.ofNat 8 (w.toNat % 256) := by
  rw [← lowByte_toNat, BitVec.ofNat_toNat, BitVec.setWidth_eq]

theorem zeroExtend_toNat (b : Byte) : (zeroExtend b).toNat = b.toNat :=
  BitVec.toNat_setWidth_of_le (by decide)

theorem zeroExtend_eq (b : Byte) : zeroExtend b = BitVec.ofNat 16 b.toNat := (BitVec.ofNat_toNat 16 b).symm

theorem registerOperand_inRange {s : State} {reg : Byte} (h : reg.toNat < s.config.nreg) :
    ∀ r ∈ [reg], r.toNat < s.config.nreg := by
  simp [h]

/-- STORE and OUT have one body: the low byte of the register goes to the cell of the address. -/
theorem exec_store_or_out {s : State} {i : Instr} {reg : Byte} {addr : Word} (hreg : reg.toNat < s.config.nreg)
    (hi : i = .store reg addr ∨ i = .out addr reg) :
    exec i s = .next (s.memWrite addr (lowByte (s.readReg reg.toNat))) := by
  obtain rfl | rfl := hi
  · exact exec_of_inRange (registerOperand_inRange hreg)
  · exact exec_of_inRange (registerOperand_inRange hreg)

theorem exec_load {s : State} {reg : Byte} {addr : Word} (hreg : reg.toNat < s.config.nreg) :
    exec (.load reg addr) s = .next (s.writeReg reg.toNat (zeroExtend (s.memRead addr))) :=
  exec_of_inRange (registerOperand_inRange hreg)

theorem State.memRead_memWrite_self {s : State} (hw : Wf s = true) {a a' : Word} (h : s.cellIndex a' = s.cellIndex a)
    (b : Byte) : (s.memWrite a b).memRead a' = b := by
  rw [State.memRead_memWrite hw, if_pos h]

theorem State.memWrite_frame {s : State} (hw : Wf s = true) (a : Word) (b : Byte) :
    MemoryKeptExcept (s.cellIndex a) s (s.memWrite a b) ∧ RegistersKeptExcept [] s (s.memWrite a b) ∧
      ControlKept s (s.memWrite a b) :=
  ⟨fun n hn => by rw [State.byteAt_memWrite hw, if_neg hn], fun _ _ => rfl, rfl, rfl, rfl⟩

/-- Settles O32. -/
theorem storeAndOutWriteLowByte : Obligations.StoreAndOutWriteLowByte := by
  intro s i reg addr hw hreg hi
  refine ⟨_, exec_store_or_out hreg hi, ?_, State.memWrite_frame hw addr _⟩
  rw [State.byteAt_memWrite hw, if_pos rfl, lowByte_eq]

/-- Settles O33. -/
theorem loadZeroExtendsByte : Obligations.LoadZeroExtendsByte := by
  intro s reg addr16 hw hreg
  refine ⟨_, exec_load hreg, ?_, s.writeReg_frame reg.toNat _⟩
  rw [State.readReg_writeReg_self (wf_register hw hreg), zeroExtend_toNat]
  rfl

/-- Settles O34: the write puts the low byte into the cell that the LOAD of the same address reads. -/
theorem loadReadsBackOutAndStore : Obligations.LoadReadsBackOutAndStore := by
  intro s t i reg reg' addr hw hreg hreg' hi h
  cases (exec_store_or_out hreg hi).symm.trans h
  refine ⟨_, exec_load hreg', ?_⟩
  rw [State.readReg_writeReg_self (wf_register (wf_memWrite hw _ _) hreg'), State.memRead_memWrite_self hw rfl,
    zeroExtend_toNat, lowByte_toNat]

/-- Settles O35: a fetch reads the cell `pc` names, and the write kept `pc`. -/
theorem storeIsSeenByTheNextFetch : Obligations.StoreIsSeenByTheNextFetch := by
  intro s t i reg addr hw hreg hi h hcell
  cases (exec_store_or_out hreg hi).symm.trans h
  rw [State.fetch8_byte, State.memRead_memWrite_self hw hcell, lowByte_toNat]

/-! ### A sequence of writes -/

/-- The state after a sequence of writes, in order. -/
abbrev State.writeAll (s : State) (writes : List (Word × Byte)) : State := writes.foldl (fun u w => u.memWrite w.1 w.2) s

/-- Writes keep a state well-formed and its parameters, so an address names the same cell after them. -/
theorem State.writeAll_keeps {s : State} (hw : Wf s = true) (writes : List (Word × Byte)) :
    Wf (s.writeAll writes) = true ∧ (s.writeAll writes).config = s.config := by
  induction writes generalizing s with
  | nil => exact ⟨hw, rfl⟩
  | cons w ws ih => exact ih (wf_memWrite hw w.1 w.2)

/-- Settles O36, by induction on the writes from the last one: it is found if it names the cell, and passed over if not. -/
theorem readGivesTheMostRecentWrite : Obligations.ReadGivesTheMostRecentWrite := by
  intro s writes a hw
  induction writes using List.reverseRecOn with
  | nil => rfl
  | append_singleton ws w ih =>
    obtain ⟨hw', hcfg⟩ := State.writeAll_keeps hw ws
    rw [List.foldl_append, List.reverse_append, List.reverse_singleton, List.singleton_append, List.find?_cons]
    rw [List.foldl_cons, List.foldl_nil, State.memRead_memWrite hw', State.cellIndex, State.cellIndex, hcfg]
    by_cases e : w.1.toNat % s.config.memSize = a.toNat % s.config.memSize
    · simp [e]
    · simpa [e, Ne.symm e] using ih

/-! ### What changes Memory, over all instructions -/

/-- Settles O38: every other effect leaves the list of cells as it is. -/
theorem onlyStoreAndOutChangeMemory : Obligations.OnlyStoreAndOutChangeMemory := by
  intro i s t n hw h hchanged
  obtain ⟨hin, rfl⟩ | ⟨-, rfl⟩ := exec_cases h
  · cases i with
    | nop | halt | movi | mov | add | sub | cmp | jmp | jz | jnz | load => exact absurd rfl hchanged
    | out addr reg | store reg addr =>
      have cell : n = s.cellIndex addr := by
        by_contra other
        exact hchanged ((State.memWrite_frame hw addr _).1 n other)
      exact ⟨reg, addr, by simp, by simpa [registerOperands] using hin, cell⟩
  · exact absurd rfl hchanged

end Sys2Proof.Machine
end

section
/-! PROOF. Registers an instruction does not name (spec/10_state.md sections 2 and 9): they are not written, and they cannot influence
the step. -/

namespace Sys2Proof.Machine

open Sys2Proof.Safety

/-- An effect writes no register but its destination, PC and FL. -/
theorem effect_readReg {i : Instr} {s : State} {j : Nat} (hj : GeneralPurpose s j = true)
    (hd : ∀ r, destination i = some r → r.toNat ≠ j) : (effect i s).readReg j = s.readReg j := by
  obtain ⟨-, hpc, hfl⟩ := generalPurpose_iff.1 hj
  cases i with
  | nop | halt | out | store => rfl
  | movi | mov | load => exact State.readReg_writeReg_ne (hd _ rfl)
  | add | sub => exact State.readReg_writeResult_of_ne (hd _ rfl) hfl _
  | cmp => exact State.readReg_setZ_of_ne hfl _
  | jmp | jz | jnz => exact State.readReg_writeReg_ne hpc.symm

/-- The five variants that have a destination. -/
theorem cases_of_destination {i : Instr} {r : Byte} (h : destination i = some r) :
    (∃ v, i = .movi r v) ∨ (∃ r2, i = .mov r r2) ∨ (∃ r2, i = .add r r2) ∨ (∃ r2, i = .sub r r2) ∨ ∃ a, i = .load r a := by
  cases i with
  | nop | halt | cmp | jmp | jz | jnz | out | store => cases h
  | movi | mov | add | sub | load =>
    cases h
    simp

/-- Settles O37: a changed general-purpose register is the destination. -/
theorem onlyTheDestinationIsWritten : Obligations.OnlyTheDestinationIsWritten := by
  intro i s t j hj h hchanged
  obtain ⟨-, rfl⟩ | ⟨-, rfl⟩ := exec_cases h
  · have named : ∃ r, destination i = some r ∧ r.toNat = j := by
      by_contra none
      exact hchanged (effect_readReg hj fun r hr e => none ⟨r, hr, e⟩)
    obtain ⟨r, hr, e⟩ := named
    exact ⟨r, e, cases_of_destination hr⟩
  · exact absurd rfl hchanged

/-! ### Changing a register that is not named -/

section
variable {s : State} {k : Nat} {v : Word}

theorem State.readReg_writeReg_unnamed {r : Byte} (h : r.toNat ≠ k) : (s.writeReg k v).readReg r.toNat = s.readReg r.toNat :=
  State.readReg_writeReg_ne h.symm

theorem State.setPc_writeReg (hpc : k ≠ s.config.pcIdx) (w : Word) : (s.writeReg k v).setPc w = (s.setPc w).writeReg k v :=
  State.writeReg_comm hpc

theorem State.fl_writeReg_of_ne (hfl : k ≠ s.config.flIdx) : (s.writeReg k v).fl = s.fl := State.readReg_writeReg_ne hfl

theorem State.pc_writeReg_of_ne (hpc : k ≠ s.config.pcIdx) : (s.writeReg k v).pc = s.pc := State.readReg_writeReg_ne hpc

theorem State.setZ_writeReg (hfl : k ≠ s.config.flIdx) (r : Word) : (s.writeReg k v).setZ r = (s.setZ r).writeReg k v := by
  rw [State.setZ, State.fl_writeReg_of_ne hfl]
  exact State.writeReg_comm hfl

theorem State.writeResult_writeReg (hfl : k ≠ s.config.flIdx) {reg : Byte} (hreg : reg.toNat ≠ k) (r : Word) :
    (s.writeReg k v).writeResult reg r = (s.writeResult reg r).writeReg k v :=
  calc (s.writeReg k v).writeResult reg r
    _ = ((s.writeReg reg.toNat r).writeReg k v).setZ r := congrArg (State.setZ · r) (State.writeReg_comm hreg.symm)
    _ = (s.writeResult reg r).writeReg k v := State.setZ_writeReg (s := s.writeReg reg.toNat r) hfl r

/-- An effect reads and writes only PC, FL and the registers it names, so it commutes with a write of any other. -/
theorem effect_writeReg {i : Instr} (hk : GeneralPurpose s k = true) (hnamed : ∀ r ∈ registerOperands i, r.toNat ≠ k) :
    effect i (s.writeReg k v) = (effect i s).writeReg k v := by
  obtain ⟨-, hpc, hfl⟩ := generalPurpose_iff.1 hk
  cases i with
  | nop | halt => rfl
  | jmp addr16 => exact State.setPc_writeReg hpc _
  | jz addr16 | jnz addr16 =>
    rw [effect, effect, State.fl_writeReg_of_ne hfl, State.pc_writeReg_of_ne hpc]
    exact State.setPc_writeReg hpc _
  | movi reg | load reg => exact State.writeReg_comm (hnamed reg (by simp [registerOperands])).symm
  | out _ reg | store reg =>
    rw [effect, effect, State.readReg_writeReg_unnamed (hnamed reg (by simp [registerOperands]))]
    rfl
  | mov reg1 reg2 =>
    rw [effect, effect, State.readReg_writeReg_unnamed (hnamed reg2 (by simp [registerOperands]))]
    exact State.writeReg_comm (hnamed reg1 (by simp [registerOperands])).symm
  | add reg1 reg2 | sub reg1 reg2 =>
    have h1 := hnamed reg1 (by simp [registerOperands])
    have h2 := hnamed reg2 (by simp [registerOperands])
    rw [effect, effect, State.readReg_writeReg_unnamed h1, State.readReg_writeReg_unnamed h2]
    exact State.writeResult_writeReg hfl h1 _
  | cmp reg1 reg2 =>
    have h1 := hnamed reg1 (by simp [registerOperands])
    have h2 := hnamed reg2 (by simp [registerOperands])
    rw [effect, effect, State.readReg_writeReg_unnamed h1, State.readReg_writeReg_unnamed h2]
    exact State.setZ_writeReg hfl _

/-- The guard looks at NREG alone, so it decides the same way after the write. -/
theorem exec_writeReg {t : State} {i : Instr} (hk : GeneralPurpose s k = true)
    (hnamed : ∀ r ∈ registerOperands i, r.toNat ≠ k) (h : exec i s = .next t) :
    exec i (s.writeReg k v) = .next (t.writeReg k v) := by
  obtain ⟨hin, rfl⟩ | ⟨⟨r, hr, hout⟩, rfl⟩ := exec_cases h
  · rw [exec_of_inRange (s := s.writeReg k v) hin, effect_writeReg hk hnamed]
  · exact exec_of_not_inRange hr (State.inRange_eq_false_iff.2 hout)

end

/-- Settles O42: the fetch and the body both commute with the write. -/
theorem unnamedRegisterDoesNotInterfere : Obligations.UnnamedRegisterDoesNotInterfere := by
  intro s i rest k v hw hs hk hdec hnamed
  obtain ⟨-, hpc, -⟩ := generalPurpose_iff.1 hk
  have hpc' : (s.writeReg k v).pc = s.pc := State.pc_writeReg_of_ne hpc
  obtain ⟨t, ht⟩ := exec_completes i (s.setPc (s.pc + BitVec.ofNat 16 (lengthOf i)))
  have hdec' : decode (s.writeReg k v).config.opc ((s.writeReg k v).bytesFrom (s.writeReg k v).pc 4) = .ok (i, rest) := by
    rw [hpc']
    exact hdec
  refine ⟨t, (step_of_decode hw hs hdec).trans ht, ?_⟩
  rw [step_of_decode (wf_writeReg hw k v) hs hdec', hpc', State.setPc_writeReg hpc]
  exact exec_writeReg hk hnamed ht

end Sys2Proof.Machine
end

section
/-! PROOF. The value of `pc` after a step, selected as the control-flow multiplexer says (spec/40_fetch_decode.md section 6). -/

namespace Sys2Proof.Machine

open Sys2Proof.Safety

/-! ### The value an effect gives `pc` -/

section
variable {s : State}

theorem State.readReg_setPc (hw : Wf s = true) (v : Word) (j : Nat) :
    (s.setPc v).readReg j = if j = s.config.pcIdx then v else s.readReg j := by
  by_cases e : j = s.config.pcIdx
  · rw [if_pos e, e]
    exact State.pc_setPc (wf_pcIdx hw)
  · rw [if_neg e]
    exact State.readReg_writeReg_ne (Ne.symm e)

theorem State.pc_writeReg (hw : Wf s = true) (i : Nat) (v : Word) :
    (s.writeReg i v).pc = if i = s.config.pcIdx then v else s.pc := by
  by_cases e : i = s.config.pcIdx
  · rw [if_pos e, e]
    exact State.pc_setPc (wf_pcIdx hw)
  · rw [if_neg e]
    exact State.readReg_writeReg_ne e

/-- The flag update does not reach `pc`, so a result written to PC_IDX stands there. -/
theorem State.pc_setZ (hw : Wf s = true) (r : Word) : (s.setZ r).pc = s.pc := State.readReg_setZ_of_ne (wf_distinct hw) r

theorem State.pc_writeResult (hw : Wf s = true) (reg : Byte) (r : Word) :
    (s.writeResult reg r).pc = if reg.toNat = s.config.pcIdx then r else s.pc :=
  (State.pc_setZ (wf_writeReg hw reg.toNat r) r).trans (State.pc_writeReg hw reg.toNat r)

/-- ADD and SUB with destination PC compute the target from PC itself. -/
theorem State.pc_writeResult_of_pc (hw : Wf s = true) (reg : Byte) (f : Word → Word) :
    (s.writeResult reg (f (s.readReg reg.toNat))).pc = if reg.toNat = s.config.pcIdx then f s.pc else s.pc := by
  rw [State.pc_writeResult hw]
  split_ifs with e
  · rw [e, State.pc]
  · rfl

/-! ### The value a body gives `pc` -/

/-- A body whose effect keeps `pc` keeps it, run or skipped. -/
theorem exec_pc_of_kept {t : State} {i : Instr} (heff : (effect i s).pc = s.pc) (h : exec i s = .next t) : t.pc = s.pc := by
  obtain ⟨-, rfl⟩ | ⟨-, rfl⟩ := exec_cases h
  · exact heff
  · rfl

/-- A body with a destination gives `pc` the target when the destination is PC_IDX, which the guard lets through when the other operands
are in range. -/
theorem exec_pc_of_destination {t : State} {i : Instr} {r : Byte} {others : List Byte} {target : Word} (hw : Wf s = true)
    (hops : registerOperands i = r :: others)
    (heff : (effect i s).pc = if r.toNat = s.config.pcIdx then target else s.pc) (h : exec i s = .next t) :
    t.pc = if r.toNat = s.config.pcIdx ∧ (∀ o ∈ others, o.toNat < s.config.nreg) then target else s.pc := by
  have hpc := (config_facts (wf_config hw)).1
  obtain ⟨hin, rfl⟩ | ⟨⟨o, ho, hout⟩, rfl⟩ := exec_cases h
  · have hothers : ∀ o ∈ others, o.toNat < s.config.nreg := fun o ho => hin o (hops ▸ List.mem_cons_of_mem r ho)
    rw [heff, if_congr (and_iff_left hothers) rfl rfl]
  · rw [if_neg]
    rintro ⟨hr, hothers⟩
    rw [hops] at ho
    obtain rfl | ho := List.mem_cons.1 ho
    · omega
    · exact Nat.not_lt.2 hout (hothers o ho)

end

/-- Settles O11: each effect sets `pc` from the state in which the fetch has moved it past the instruction. -/
theorem pcAfterStepIsSelected : Obligations.PcAfterStepIsSelected := by
  intro s t hw hs h
  rcases hdec : decode s.config.opc (s.bytesFrom s.pc 4) with e | ⟨i, rest⟩
  · cases (step_of_unknown hs (decodeOpcode_of_decode_error hdec)).symm.trans h
    exact State.pc_setPc (wf_pcIdx hw)
  · rw [step_of_decode hw hs hdec] at h
    dsimp only
    generalize s.pc + BitVec.ofNat 16 (lengthOf i) = after at h ⊢
    have hw' : Wf (s.setPc after) = true := wf_setPc hw after
    have hpc : (s.setPc after).pc = after := State.pc_setPc (wf_pcIdx hw)
    have hfl : (s.setPc after).fl = s.fl := State.fl_setPc hw after
    have value : ∀ r : Byte, (s.setPc after).readReg r.toNat = if r.toNat = s.config.pcIdx then after else s.readReg r.toNat :=
      fun r => State.readReg_setPc hw after r.toNat
    cases i with
    | nop | halt | out | store => exact (exec_pc_of_kept rfl h).trans hpc
    | cmp r r2 => exact (exec_pc_of_kept (i := .cmp r r2) (State.pc_setZ hw' _) h).trans hpc
    | jmp a =>
      cases (exec_jmp a _).symm.trans h
      exact State.pc_setPc (wf_pcIdx hw')
    | jz a =>
      cases (exec_jz a _).symm.trans h
      rw [State.pc_setPc (wf_pcIdx hw'), hfl, hpc]
    | jnz a =>
      cases (exec_jnz a _).symm.trans h
      rw [State.pc_setPc (wf_pcIdx hw'), hfl, hpc]
    | movi r v =>
      rw [exec_pc_of_destination (i := .movi r v) hw' rfl (State.pc_writeReg hw' _ _) h, hpc]
      rfl
    | load r a =>
      rw [exec_pc_of_destination (i := .load r a) hw' rfl (State.pc_writeReg hw' _ _) h, hpc, zeroExtend_eq]
      rfl
    | mov r r2 =>
      rw [exec_pc_of_destination (i := .mov r r2) hw' rfl (State.pc_writeReg hw' _ _) h, hpc, value]
      rfl
    | add r r2 =>
      have target := State.pc_writeResult_of_pc hw' r (addWrap · ((s.setPc after).readReg r2.toNat))
      rw [exec_pc_of_destination (i := .add r r2) hw' rfl target h, hpc, value]
      rfl
    | sub r r2 =>
      have target := State.pc_writeResult_of_pc hw' r (subWrap · ((s.setPc after).readReg r2.toNat))
      rw [exec_pc_of_destination (i := .sub r r2) hw' rfl target h, hpc, value, subWrap_eq]
      rfl

end Sys2Proof.Machine
end

section
/-! PROOF. The requests of a step on the memory ports, and Memory as they make it (spec/20_memory.md section 5). -/

namespace Sys2Proof.Machine

open Sys2Proof.Safety

/-! ### What requests do -/

theorem applyRequests_append (s : State) (rs rs' : List Request) :
    applyRequests s (rs ++ rs') = applyRequests (applyRequests s rs) rs' := List.foldl_append

/-- The reads of a fetch leave the state. -/
theorem applyRequests_fetchRequests (s : State) (a : Word) (n : Nat) : applyRequests s (fetchRequests a n) = s := by
  rw [applyRequests, fetchRequests, List.foldl_map]
  exact List.foldl_fixed (List.range n)

/-- Requests do not look at the registers. -/
theorem applyRequests_setPc (s : State) (v : Word) (rs : List Request) :
    applyRequests (s.setPc v) rs = (applyRequests s rs).setPc v := by
  induction rs generalizing s with
  | nil => rfl
  | cons r rs ih =>
    cases r with
    | read a => exact ih s
    | write a b => exact ih (s.memWrite a b)

/-! ### The data request of a body -/

theorem State.inRange_eq_true_iff {s : State} {r : Byte} : s.inRange r = true ↔ r.toNat < s.config.nreg :=
  decide_eq_true_iff

theorem dataRequests_of_not_inRange {i : Instr} {s : State} {r : Byte} (hr : r ∈ registerOperands i)
    (hout : s.config.nreg ≤ r.toNat) : dataRequests i s = [] := by
  have out := State.inRange_eq_false_iff.2 hout
  cases i with
  | nop | halt | jmp | jz | jnz | movi | mov | add | sub | cmp => rfl
  | out | load | store =>
    obtain rfl := List.mem_singleton.1 hr
    simp [dataRequests, out]

/-- Memory after a body is what its data request makes of it. -/
theorem exec_mem {i : Instr} {s t : State} (h : exec i s = .next t) : t.mem = (applyRequests s (dataRequests i s)).mem := by
  obtain ⟨hin, rfl⟩ | ⟨⟨r, hr, hout⟩, rfl⟩ := exec_cases h
  · cases i with
    | nop | halt | jmp | jz | jnz | movi | mov | add | sub | cmp => rfl
    | out _ reg | load reg | store reg =>
      have inRange : s.inRange reg = true := State.inRange_eq_true_iff.2 (hin reg (by simp [registerOperands]))
      rw [dataRequests, if_pos inRange]
      rfl
  · rw [dataRequests_of_not_inRange hr hout]
    rfl

/-! ### The requests of a step -/

theorem stepRequests_of_decode {s : State} {i : Instr} {rest : List Byte} (hw : Wf s = true) (hs : s.halted = false)
    (h : decode s.config.opc (s.bytesFrom s.pc 4) = .ok (i, rest)) :
    stepRequests s =
      fetchRequests s.pc (lengthOf i) ++ dataRequests i (s.setPc (s.pc + BitVec.ofNat 16 (lengthOf i))) := by
  simp [stepRequests, hs, State.fetchInstr_of_decode (wf_pcIdx hw) h]

/-- Memory after a step is what its requests make of it. -/
theorem step_mem {s t : State} (hw : Wf s = true) (h : step s = .next t) :
    t.mem = (applyRequests s (stepRequests s)).mem := by
  cases hs : s.halted with
  | true =>
    cases (step_of_halted hs).symm.trans h
    rw [stepRequests_of_halted hs]
    rfl
  | false =>
    rcases hdec : decode s.config.opc (s.bytesFrom s.pc 4) with e | ⟨i, rest⟩
    · have unknown := decodeOpcode_of_decode_error hdec
      cases (step_of_unknown hs unknown).symm.trans h
      rw [stepRequests_of_unknown hs unknown]
      rfl
    · rw [step_of_decode hw hs hdec] at h
      rw [exec_mem h, stepRequests_of_decode hw hs hdec, applyRequests_append, applyRequests_fetchRequests,
        applyRequests_setPc]
      rfl

/-- Settles O12: the bytes at `pc` tell which requests there are, and PC as a register operand reads as the next address. -/
theorem stepRequestsAccountForMemory : Obligations.StepRequestsAccountForMemory := by
  intro s t hw h
  refine ⟨fun n => congrArg (Memory.lookup · n) (step_mem hw h), stepRequests_of_halted, fun hs => ?_⟩
  rcases hdec : decode s.config.opc (s.bytesFrom s.pc 4) with e | ⟨i, rest⟩
  · exact stepRequests_of_unknown hs (decodeOpcode_of_decode_error hdec)
  · rw [stepRequests_of_decode hw hs hdec]
    refine congrArg (fetchRequests s.pc (lengthOf i) ++ ·) ?_
    cases i with
    | nop | halt | jmp | jz | jnz | movi | mov | add | sub | cmp => rfl
    | out | load | store => simp [dataRequests, State.inRange_eq_true_iff, lowByte_eq, State.readReg_setPc hw]

end Sys2Proof.Machine
end

section
/-! PROOF. The host's moves (spec/20_memory.md section 2, spec/70_reset_and_hazards.md sections 1 and 2): reset, load, launch and
snapshot. -/

namespace Sys2Proof.Machine

open Sys2Proof.Safety

/-! ### The fresh state and the reset -/

theorem wf_freshState {c : Config} (h : c.wellFormed = true) : Wf (freshState c) = true :=
  wf_iff.2 ⟨h, List.length_replicate, Memory.wf_nil, rfl⟩

/-- The reset fills the register file and keeps everything else that well-formedness speaks of. -/
theorem wf_hostReset {s : State} (hw : Wf s = true) : Wf (hostReset s) = true := by
  obtain ⟨hcfg, -, hmem, hin⟩ := wf_iff.1 hw
  exact wf_iff.2 ⟨hcfg, hostReset_regs_length s, hmem, hin⟩

/-- Settles O46. -/
theorem resetKeepsMemory : Obligations.ResetKeepsMemory := fun _ => ⟨fun _ => rfl, rfl, rfl, wf_hostReset⟩

/-- Settles O44: the reset state is the fresh state of the default parameters, and an empty image stores nothing. -/
theorem resetIsWellFormed : Obligations.ResetIsWellFormed := ⟨wf_freshState (c := defaultConfig) (by decide), rfl⟩

/-! ### Loading an image -/

theorem hostLoad_of_fits {bytes : List Byte} {s : State} (h : bytes.length ≤ s.config.memSize) :
    hostLoad bytes s = .next { s with mem := s.mem.storeAll 0 bytes } :=
  if_neg (Nat.not_lt.2 h)

theorem wf_storeAll {bytes : List Byte} {s : State} (hw : Wf s = true) (h : bytes.length ≤ s.config.memSize) :
    Wf { s with mem := s.mem.storeAll 0 bytes } = true := by
  obtain ⟨hcfg, hlen, hmem, hin⟩ := wf_iff.1 hw
  exact wf_iff.2 ⟨hcfg, hlen, Memory.storeAll_wf hmem 0 bytes, Memory.storeAll_within hin (by rwa [Nat.zero_add])⟩

/-- The bytes of Memory after an image has been stored at its start. -/
theorem lookup_storeAll_zero {m : Memory} (hm : Memory.wf m = true) (bytes : List Byte) (n : Nat) :
    Memory.lookup (m.storeAll 0 bytes) n = if n < bytes.length then bytes.getD n 0 else Memory.lookup m n := by
  rw [Memory.lookup_storeAll hm, Nat.zero_add, Nat.sub_zero]
  simp

/-- Settles O47: bytes that fit are stored from cell 0 on, and the others are refused. -/
theorem loadCopiesImageOrRefuses : Obligations.LoadCopiesImageOrRefuses := by
  intro bytes s hw
  split_ifs with h
  · exact ⟨_, hostLoad_of_fits h, lookup_storeAll_zero (wf_memory hw) bytes, fun _ _ => rfl, ⟨rfl, rfl, rfl⟩,
      wf_storeAll hw h⟩
  · exact if_pos (Nat.lt_of_not_le h)

/-! ### The launch -/

/-- The launch state: the fresh state with the image stored. -/
theorem launch_of_fits {c : Config} {image : List Byte} (h : image.length ≤ c.memSize) :
    launch c image = .next (hostReset { freshState c with mem := Memory.storeAll [] 0 image }) := by
  rw [launch, hostLoad_of_fits (s := freshState c) h]
  rfl

/-- Memory of the launch state is the image followed by zeros. -/
theorem lookup_storeAll_nil (image : List Byte) (n : Nat) : Memory.lookup (Memory.storeAll [] 0 image) n = image.getD n 0 := by
  rw [lookup_storeAll_zero Memory.wf_nil]
  split_ifs with h
  · rfl
  · rw [List.getD_eq_default _ _ (Nat.le_of_not_lt h)]
    rfl

theorem State.cellIndex_zero (s : State) : s.cellIndex 0 = 0 := Nat.zero_mod s.config.memSize

/-- Settles O48: the reset of the loaded fresh state, whose `pc` is 0, so that the first opcode fetched is the byte of cell 0. -/
theorem launchGivesTheLaunchState : Obligations.LaunchGivesTheLaunchState := by
  intro c image hc himage
  have wf : Wf { freshState c with mem := Memory.storeAll [] 0 image } = true := wf_storeAll (wf_freshState hc) himage
  refine ⟨_, launch_of_fits himage, wf_hostReset wf, rfl, hostReset_readReg _, rfl, rfl, lookup_storeAll_nil image, ?_⟩
  rw [State.fetch8_byte, State.pc, hostReset_readReg, State.memRead, State.cellIndex_zero]
  exact lookup_storeAll_nil image 0

/-- Settles O49: the list has one byte per cell index below MEM_SIZE, in order. -/
theorem snapshotGivesEveryByte : Obligations.SnapshotGivesEveryByte := by
  intro s
  refine ⟨by simp [hostSnapshot], fun n hn => ?_⟩
  rw [hostSnapshot, List.getD_eq_getElem _ _ (by simpa using hn), List.getElem_map, List.getElem_range]

end Sys2Proof.Machine
end
